-- ==== Sys2Proof/Word.lean ====
section
/-! DEFINITION. The machine's words: the widths of spec R9, R80 and R81. -/

namespace Sys2Proof

/-- A general register, a timer, a memory cell, an immediate `kk` (R9, R81). -/
abbrev Byte := BitVec 8

/-- An instruction word, PC, I, a return address (R9, R80). -/
abbrev Word := BitVec 16

/-- A 4-bit field: a register index `x` or `y`, a sprite height `n`, a key or glyph number (R81, R108). -/
abbrev Nibble := BitVec 4

/-- A 12-bit address field `nnn` (R81). -/
abbrev Addr12 := BitVec 12

end Sys2Proof
end

