-- ==== Sys2Proof/Syntax.lean ====
section
/-! DEFINITION. The 34 instructions of spec R90, one constructor per row of spec/opcode_table.json, in the table's
order. Each operand has exactly the width of its field (R81, R83). `Unknown` is no instruction of the table: the
decoder answers it (R86) and the step halts on it (R106). -/

namespace Sys2Proof

/-- A decoded instruction (R89). -/
inductive Instr where
  /-- 00E0 CLS (R120) -/
  | cls
  /-- 00EE RET (R140) -/
  | ret
  /-- 1NNN JP nnn (R141) -/
  | jp (nnn : Addr12)
  /-- 2NNN CALL nnn (R142) -/
  | call (nnn : Addr12)
  /-- 3XNN SE Vx, kk (R145) -/
  | seImm (x : Nibble) (kk : Byte)
  /-- 4XNN SNE Vx, kk (R146) -/
  | sneImm (x : Nibble) (kk : Byte)
  /-- 5XY0 SE Vx, Vy (R147) -/
  | seReg (x y : Nibble)
  /-- 6XNN LD Vx, kk (R173) -/
  | ldImm (x : Nibble) (kk : Byte)
  /-- 7XNN ADD Vx, kk (R174) -/
  | addImm (x : Nibble) (kk : Byte)
  /-- 8XY0 LD Vx, Vy (R175) -/
  | ldReg (x y : Nibble)
  /-- 8XY1 OR Vx, Vy (R177) -/
  | orReg (x y : Nibble)
  /-- 8XY2 AND Vx, Vy (R178) -/
  | andReg (x y : Nibble)
  /-- 8XY3 XOR Vx, Vy (R179) -/
  | xorReg (x y : Nibble)
  /-- 8XY4 ADD Vx, Vy (R180) -/
  | addReg (x y : Nibble)
  /-- 8XY5 SUB Vx, Vy (R181) -/
  | subReg (x y : Nibble)
  /-- 8XY6 SHR Vx, Vy (R182) -/
  | shr (x y : Nibble)
  /-- 8XY7 SUBN Vx, Vy (R183) -/
  | subnReg (x y : Nibble)
  /-- 8XYE SHL Vx, Vy (R184) -/
  | shl (x y : Nibble)
  /-- 9XY0 SNE Vx, Vy (R148) -/
  | sneReg (x y : Nibble)
  /-- ANNN LD I, nnn (R200) -/
  | ldI (nnn : Addr12)
  /-- BNNN JP V0, nnn (R143) -/
  | jpV0 (nnn : Addr12)
  /-- CXNN RND Vx, kk (R185) -/
  | rnd (x : Nibble) (kk : Byte)
  /-- DXYN DRW Vx, Vy, n (R122) -/
  | drw (x y n : Nibble)
  /-- EX9E SKP Vx (R237) -/
  | skp (x : Nibble)
  /-- EXA1 SKNP Vx (R238) -/
  | sknp (x : Nibble)
  /-- FX07 LD Vx, DT (R239) -/
  | ldVxDt (x : Nibble)
  /-- FX0A LD Vx, K (R240) -/
  | ldVxK (x : Nibble)
  /-- FX15 LD DT, Vx (R242) -/
  | ldDtVx (x : Nibble)
  /-- FX18 LD ST, Vx (R243) -/
  | ldStVx (x : Nibble)
  /-- FX1E ADD I, Vx (R201) -/
  | addIVx (x : Nibble)
  /-- FX29 LD F, Vx (R202) -/
  | ldFVx (x : Nibble)
  /-- FX33 LD B, Vx (R203) -/
  | ldBVx (x : Nibble)
  /-- FX55 LD [I], Vx (R204) -/
  | ldMemVx (x : Nibble)
  /-- FX65 LD Vx, [I] (R205) -/
  | ldVxMem (x : Nibble)
  deriving DecidableEq, Repr

end Sys2Proof
end

