-- ==== Sys2Proof/Decode.lean ====
section
/-! DEFINITION. The instruction decoder of spec R84 to R87, total on every word, and after it the encoder, written
from the layouts of R82 and the patterns of R90. The bit patterns are general knowledge in the spec (G2, N2): log 6. -/

namespace Sys2Proof

/-- `op`, w[15:12] (R81). -/
def fieldOp (w : Word) : Nibble := w.extractLsb' 12 4
/-- `x`, w[11:8] (R81). -/
def fieldX (w : Word) : Nibble := w.extractLsb' 8 4
/-- `y`, w[7:4] (R81). -/
def fieldY (w : Word) : Nibble := w.extractLsb' 4 4
/-- `n`, w[3:0] (R81). -/
def fieldN (w : Word) : Nibble := w.extractLsb' 0 4
/-- `kk`, w[7:0] (R81). -/
def fieldKK (w : Word) : Byte := w.extractLsb' 0 8
/-- `nnn`, w[11:0] (R81). -/
def fieldNNN (w : Word) : Addr12 := w.extractLsb' 0 12

/-- What the decoder answers for a word: one of the 34 instructions, or `Unknown(w)` (R86). -/
inductive Decoded where
  | instr (i : Instr)
  | unknown (w : Word)
  deriving DecidableEq, Repr

/-- The 0x0 family (R85): both words match whole. -/
def decodeFixed (w : Word) : Decoded :=
  if w = 0x00E0#16 then .instr .cls
  else if w = 0x00EE#16 then .instr .ret
  else .unknown w

/-- The 0x8 family (R85): the low nibble selects. -/
def decodeAlu (w : Word) : Decoded :=
  let x := fieldX w
  let y := fieldY w
  match (fieldN w).toNat with
  | 0x0 => .instr (.ldReg x y)
  | 0x1 => .instr (.orReg x y)
  | 0x2 => .instr (.andReg x y)
  | 0x3 => .instr (.xorReg x y)
  | 0x4 => .instr (.addReg x y)
  | 0x5 => .instr (.subReg x y)
  | 0x6 => .instr (.shr x y)
  | 0x7 => .instr (.subnReg x y)
  | 0xE => .instr (.shl x y)
  | _ => .unknown w

/-- The 0xE family (R85): the low byte selects. -/
def decodeKey (w : Word) : Decoded :=
  if fieldKK w = 0x9E#8 then .instr (.skp (fieldX w))
  else if fieldKK w = 0xA1#8 then .instr (.sknp (fieldX w))
  else .unknown w

/-- The 0xF family (R85): the low byte selects. -/
def decodeMisc (w : Word) : Decoded :=
  let x := fieldX w
  if fieldKK w = 0x07#8 then .instr (.ldVxDt x)
  else if fieldKK w = 0x0A#8 then .instr (.ldVxK x)
  else if fieldKK w = 0x15#8 then .instr (.ldDtVx x)
  else if fieldKK w = 0x18#8 then .instr (.ldStVx x)
  else if fieldKK w = 0x1E#8 then .instr (.addIVx x)
  else if fieldKK w = 0x29#8 then .instr (.ldFVx x)
  else if fieldKK w = 0x33#8 then .instr (.ldBVx x)
  else if fieldKK w = 0x55#8 then .instr (.ldMemVx x)
  else if fieldKK w = 0x65#8 then .instr (.ldVxMem x)
  else .unknown w

/-- `Decode` of R85: the top nibble selects the family. The fixed bits match exactly (D6). -/
def decodeWord (w : Word) : Decoded :=
  match (fieldOp w).toNat with
  | 0x0 => decodeFixed w
  | 0x1 => .instr (.jp (fieldNNN w))
  | 0x2 => .instr (.call (fieldNNN w))
  | 0x3 => .instr (.seImm (fieldX w) (fieldKK w))
  | 0x4 => .instr (.sneImm (fieldX w) (fieldKK w))
  | 0x5 => if fieldN w = 0#4 then .instr (.seReg (fieldX w) (fieldY w)) else .unknown w
  | 0x6 => .instr (.ldImm (fieldX w) (fieldKK w))
  | 0x7 => .instr (.addImm (fieldX w) (fieldKK w))
  | 0x8 => decodeAlu w
  | 0x9 => if fieldN w = 0#4 then .instr (.sneReg (fieldX w) (fieldY w)) else .unknown w
  | 0xA => .instr (.ldI (fieldNNN w))
  | 0xB => .instr (.jpV0 (fieldNNN w))
  | 0xC => .instr (.rnd (fieldX w) (fieldKK w))
  | 0xD => .instr (.drw (fieldX w) (fieldY w) (fieldN w))
  | 0xE => decodeKey w
  | _ => decodeMisc w

/-- Two bytes as fetched, packed big-endian: the byte at the lower address is bits 15..8 (R59). -/
def packWord (hi lo : Byte) : Word := hi ++ lo

/-- The byte of a word that stands at the lower address, w[15:8] (R59). -/
def highByte (w : Word) : Byte := w.extractLsb' 8 8
/-- The byte of a word that stands at the higher address, w[7:0] (R59). -/
def lowByte (w : Word) : Byte := w.extractLsb' 0 8

/-- Why a list of bytes does not begin with an instruction. -/
inductive DecodeError where
  /-- the first word is none of the 34 (R87) -/
  | unknown (w : Word)
  /-- fewer than two bytes (R80) -/
  | truncated
  deriving DecidableEq, Repr

/-- The decoder on bytes: the instruction of the first two bytes and the bytes after it (R59, R80). -/
def decodeBytes : List Byte → Except DecodeError (Instr × List Byte)
  | hi :: lo :: rest =>
    match decodeWord (packWord hi lo) with
    | .instr i => .ok (i, rest)
    | .unknown w => .error (.unknown w)
  | _ => .error .truncated

/-- The bytes, in memory order, of a table row's word `w` of `nbits` bits (bits above `nbits` are 0). -/
def tableWordBytes (nbits w : Nat) : List Byte :=
  let word := BitVec.ofNat 16 (w % 2 ^ nbits)
  [highByte word, lowByte word]

/-- The host's question: what the decoder reads from the word `w` of `nbits` bits. -/
def decodeTableWord (nbits w : Nat) : Option Instr :=
  match decodeBytes (tableWordBytes nbits w) with
  | .ok (i, _) => some i
  | .error _ => none

/-! ### The encoder -/

/-- Layout `NNN` of R82. -/
def layoutNNN (op : Nibble) (nnn : Addr12) : Word := op ++ nnn
/-- Layouts `XKK` and, with a fixed `kk`, `XFN` of R82. -/
def layoutXKK (op x : Nibble) (kk : Byte) : Word := op ++ x ++ kk
/-- Layouts `XYN` and, with a fixed `n`, `XY` of R82. -/
def layoutXYN (op x y n : Nibble) : Word := op ++ x ++ y ++ n

/-- The one word of an instruction (R80, R90). -/
def encode : Instr → Word
  | .cls => 0x00E0
  | .ret => 0x00EE
  | .jp nnn => layoutNNN 0x1 nnn
  | .call nnn => layoutNNN 0x2 nnn
  | .seImm x kk => layoutXKK 0x3 x kk
  | .sneImm x kk => layoutXKK 0x4 x kk
  | .seReg x y => layoutXYN 0x5 x y 0x0
  | .ldImm x kk => layoutXKK 0x6 x kk
  | .addImm x kk => layoutXKK 0x7 x kk
  | .ldReg x y => layoutXYN 0x8 x y 0x0
  | .orReg x y => layoutXYN 0x8 x y 0x1
  | .andReg x y => layoutXYN 0x8 x y 0x2
  | .xorReg x y => layoutXYN 0x8 x y 0x3
  | .addReg x y => layoutXYN 0x8 x y 0x4
  | .subReg x y => layoutXYN 0x8 x y 0x5
  | .shr x y => layoutXYN 0x8 x y 0x6
  | .subnReg x y => layoutXYN 0x8 x y 0x7
  | .shl x y => layoutXYN 0x8 x y 0xE
  | .sneReg x y => layoutXYN 0x9 x y 0x0
  | .ldI nnn => layoutNNN 0xA nnn
  | .jpV0 nnn => layoutNNN 0xB nnn
  | .rnd x kk => layoutXKK 0xC x kk
  | .drw x y n => layoutXYN 0xD x y n
  | .skp x => layoutXKK 0xE x 0x9E
  | .sknp x => layoutXKK 0xE x 0xA1
  | .ldVxDt x => layoutXKK 0xF x 0x07
  | .ldVxK x => layoutXKK 0xF x 0x0A
  | .ldDtVx x => layoutXKK 0xF x 0x15
  | .ldStVx x => layoutXKK 0xF x 0x18
  | .addIVx x => layoutXKK 0xF x 0x1E
  | .ldFVx x => layoutXKK 0xF x 0x29
  | .ldBVx x => layoutXKK 0xF x 0x33
  | .ldMemVx x => layoutXKK 0xF x 0x55
  | .ldVxMem x => layoutXKK 0xF x 0x65

/-- The two bytes of an instruction as they stand in memory (R59). -/
def encodeBytes (i : Instr) : List Byte := [highByte (encode i), lowByte (encode i)]

/-! ### The opcode table -/

/-- The `mask` and `match` columns of a row of spec/opcode_table.json. -/
structure Row where
  mask : Word
  value : Word
  deriving DecidableEq, Repr

/-- The table row of an instruction. -/
def Instr.row : Instr → Row
  | .cls => ⟨0xFFFF, 0x00E0⟩
  | .ret => ⟨0xFFFF, 0x00EE⟩
  | .jp _ => ⟨0xF000, 0x1000⟩
  | .call _ => ⟨0xF000, 0x2000⟩
  | .seImm _ _ => ⟨0xF000, 0x3000⟩
  | .sneImm _ _ => ⟨0xF000, 0x4000⟩
  | .seReg _ _ => ⟨0xF00F, 0x5000⟩
  | .ldImm _ _ => ⟨0xF000, 0x6000⟩
  | .addImm _ _ => ⟨0xF000, 0x7000⟩
  | .ldReg _ _ => ⟨0xF00F, 0x8000⟩
  | .orReg _ _ => ⟨0xF00F, 0x8001⟩
  | .andReg _ _ => ⟨0xF00F, 0x8002⟩
  | .xorReg _ _ => ⟨0xF00F, 0x8003⟩
  | .addReg _ _ => ⟨0xF00F, 0x8004⟩
  | .subReg _ _ => ⟨0xF00F, 0x8005⟩
  | .shr _ _ => ⟨0xF00F, 0x8006⟩
  | .subnReg _ _ => ⟨0xF00F, 0x8007⟩
  | .shl _ _ => ⟨0xF00F, 0x800E⟩
  | .sneReg _ _ => ⟨0xF00F, 0x9000⟩
  | .ldI _ => ⟨0xF000, 0xA000⟩
  | .jpV0 _ => ⟨0xF000, 0xB000⟩
  | .rnd _ _ => ⟨0xF000, 0xC000⟩
  | .drw _ _ _ => ⟨0xF000, 0xD000⟩
  | .skp _ => ⟨0xF0FF, 0xE09E⟩
  | .sknp _ => ⟨0xF0FF, 0xE0A1⟩
  | .ldVxDt _ => ⟨0xF0FF, 0xF007⟩
  | .ldVxK _ => ⟨0xF0FF, 0xF00A⟩
  | .ldDtVx _ => ⟨0xF0FF, 0xF015⟩
  | .ldStVx _ => ⟨0xF0FF, 0xF018⟩
  | .addIVx _ => ⟨0xF0FF, 0xF01E⟩
  | .ldFVx _ => ⟨0xF0FF, 0xF029⟩
  | .ldBVx _ => ⟨0xF0FF, 0xF033⟩
  | .ldMemVx _ => ⟨0xF0FF, 0xF055⟩
  | .ldVxMem _ => ⟨0xF0FF, 0xF065⟩

end Sys2Proof
end

