-- ==== Sys2Proof/Config.lean ====
section
/-! DEFINITION. What an implementation fixes (the parameters of spec R8 and R53), the values that stand outside
the block (the step input of R101), and the free values. -/

namespace Sys2Proof

/-- `MEM_SIZE` (R8, fixed). -/
def memSize : Nat := 4096

/-- The font table has 16 glyphs of 5 bytes (R53). -/
def fontSize : Nat := 80

/-- `SHIFT_SOURCE` (R176): the register a shift reads. -/
inductive ShiftSource where
  | x
  | y
  deriving DecidableEq, Repr

/-- `ALU_VF_ORDER` (R171): which of the result and the flag is written first by 8XY4, 8XY5 and 8XY7. -/
inductive AluVfOrder where
  | flagFirst
  | flagLast
  deriving DecidableEq, Repr

/-- `WIDE_INDEX_POLICY` (R108): a register value above 0x0F used as a key or glyph number. -/
inductive WideIndexPolicy where
  | lowNibble
  | halt
  deriving DecidableEq, Repr

/-- `FONT_WRITE_POLICY` (R55): a program's write into the font ROM. -/
inductive FontWritePolicy where
  | halt
  | ignore
  | write
  deriving DecidableEq, Repr

/-- The configuration a block is constructed with (R8; `FONT_TABLE` is R53's parameter). -/
structure Config where
  /-- `FONT_BASE` -/
  fontBase : Nat
  /-- `LOAD_ADDR` -/
  loadAddr : Nat
  /-- `STACK_DEPTH` -/
  stackDepth : Nat
  shiftSource : ShiftSource
  aluVfOrder : AluVfOrder
  /-- `LOGIC_RESETS_VF` -/
  logicResetsVf : Bool
  /-- `LDST_INCREMENT_I` -/
  ldstIncrementI : Bool
  wideIndexPolicy : WideIndexPolicy
  fontWritePolicy : FontWritePolicy
  /-- `INIT_MEM`: the bytes of non-font memory at construction; an address that is not listed holds 0x00. -/
  initMem : List Host.Cell
  /-- `FONT_TABLE` -/
  fontTable : Vector Byte 80
  deriving DecidableEq, Repr

/-- The font of R53's table, one line a glyph.
PRESUMED: the spec marks the bytes as general knowledge (G3, N6), log 5. -/
def Config.standardFont : Vector Byte 80 :=
  #v[0xF0, 0x90, 0x90, 0x90, 0xF0,
     0x20, 0x60, 0x20, 0x20, 0x70,
     0xF0, 0x10, 0xF0, 0x80, 0xF0,
     0xF0, 0x10, 0xF0, 0x10, 0xF0,
     0x90, 0x90, 0xF0, 0x10, 0x10,
     0xF0, 0x80, 0xF0, 0x10, 0xF0,
     0xF0, 0x80, 0xF0, 0x90, 0xF0,
     0xF0, 0x10, 0x20, 0x40, 0x40,
     0xF0, 0x90, 0xF0, 0x90, 0xF0,
     0xF0, 0x90, 0xF0, 0x10, 0xF0,
     0xF0, 0x90, 0xF0, 0x90, 0x90,
     0xE0, 0x90, 0xE0, 0x90, 0xE0,
     0xF0, 0x80, 0x80, 0x80, 0xF0,
     0xE0, 0x90, 0x90, 0x90, 0xE0,
     0xF0, 0x80, 0xF0, 0x80, 0xF0,
     0xF0, 0x80, 0xF0, 0x80, 0x80]

/-- The default of every parameter (R8's table). DESIGN CHOICE of the spec (D7 to D16), log 2. -/
def Config.default : Config where
  fontBase := 0x050
  loadAddr := 0x200
  stackDepth := 16
  shiftSource := .x
  aluVfOrder := .flagFirst
  logicResetsVf := false
  ldstIncrementI := false
  wideIndexPolicy := .lowNibble
  fontWritePolicy := .halt
  initMem := []
  fontTable := Config.standardFont

/-- What the host supplies to one step (R101). -/
structure StepInput where
  /-- `keys[k]`: key k is down -/
  keys : Vector Bool 16
  /-- `last_key`: the most recently pressed key, if any -/
  lastKey : Option Nibble
  /-- `rnd`: the random byte for CXNN -/
  rnd : Byte
  deriving DecidableEq, Repr, Inhabited

/-- FREE VALUE: the input of a step whose input the host did not queue, applied to a counter of such steps.
R101: a model takes all three values as free inputs (draws) of each step; D19, U14, U16; log 7. -/
opaque Config.freeInput : Nat → StepInput

end Sys2Proof
end

