-- ==== Sys2Proof/Machine/State.lean ====
section
/-! DEFINITION. The state record of spec R20, as plain data, the fields the model adds to it, the reasons a block
halts (R260), and the state after reset (R290). -/

namespace Sys2Proof.Machine

/-- The operating state (R33). `Halted` is terminal. -/
inductive RunState where
  | running
  | halted
  deriving DecidableEq, Repr

/-- The fatal conditions of a step, with their payloads (R260). Each is recorded in the state; none is a `Fault`. -/
inductive HaltReason where
  /-- the first out-of-range address; raised by a fetch, DRW, FX33, FX55, FX65 -/
  | outOfBounds (a : Nat)
  /-- raised by CALL with a full stack -/
  | stackOverflow
  /-- raised by RET with an empty stack -/
  | stackUnderflow
  /-- raised by executing an `Unknown` word -/
  | unknownInstruction (w : Word)
  /-- the font ROM address; raised by FX33, FX55 under `FONT_WRITE_POLICY = Halt` -/
  | protectedWrite (a : Nat)
  /-- the register value; raised by EX9E, EXA1, FX29 under `WIDE_INDEX_POLICY = Halt` -/
  | operandOutOfRange (v : Byte)
  deriving DecidableEq, Repr

/-- An operation the host issues to a constructed and loaded block that can change it (R109). -/
inductive HostOp where
  /-- `Tick()` (R275) -/
  | tick
  /-- `Step(in)` (R100) -/
  | step (inp : StepInput)
  deriving DecidableEq, Repr

/-- Memory: the bytes that differ from the reset contents, addresses strictly rising (`Memory.wf`). -/
abbrev Memory := List Host.Cell

/-- The framebuffer: 32 rows of 64 pixels (R32). -/
abbrev Frame := Vector (Vector Bool 64) 32

/-- The record of R20, in its order, and after it four fields of the model's own. -/
structure State where
  /-- V0..VF (R21) -/
  v : Vector Byte 16
  /-- the index register I (R24) -/
  i : Word
  /-- PC (R25) -/
  pc : Word
  /-- the delay timer (R27) -/
  dt : Byte
  /-- the sound timer (R28) -/
  st : Byte
  /-- the call stack, the last element its top (R20, R29) -/
  stack : List Word
  /-- memory (R50) -/
  mem : Memory
  /-- the framebuffer (R32) -/
  fb : Frame
  /-- the operating state (R33) -/
  run : RunState
  /-- the recorded fatal condition (R34) -/
  reason : Option HaltReason
  /-- the key-wait flag (R35) -/
  awaiting : Bool
  /-- the end of the loaded image (R36) -/
  progEnd : Word
  /-- MODEL: the configuration the block was constructed with (R8); nothing writes it (log 1) -/
  cfg : Config
  /-- MODEL: the input sampled for the present step (R101; log 7) -/
  input : StepInput
  /-- MODEL: what the host does next, the first entry first (R109; log 8) -/
  pending : List HostOp
  /-- MODEL: how many free step inputs were drawn (log 7) -/
  draws : Nat
  deriving DecidableEq, Repr

/-- What stops the machine with no next state. No step and no instruction raises one: a fatal condition of a step is
a halt, and a halt is a next state (R265). -/
inductive Fault where
  /-- raised by `State.load` when the image does not fit (R64): the block never runs (R292). Safe: there is no state
  after it to claim anything about. -/
  | loadTooLarge
  deriving DecidableEq, Repr

/-- What the model gives no meaning to. No instruction of the table raises one. -/
inductive Refusal where
  /-- an instruction without a meaning yet, by its mnemonic; raised by `exec` alone. Safe. -/
  | notModelled (mnemonic : String)
  /-- raised by `State.construct` on a configuration that is not admitted (R8: "any other configuration is refused").
  Safe: no state comes of it. -/
  | configNotAdmitted
  deriving DecidableEq, Repr

/-- No key down, no key pressed, random byte zero: what `input` holds before the first step samples it.
DESIGN CHOICE, log 7. -/
def quietInput : StepInput := ⟨Vector.replicate 16 false, none, 0⟩

/-- The initial state `Construct(config)` builds (R290, R291). The zeros are the spec's decision D17 (log 3);
memory lists nothing, so every byte reads as the reset contents of `Memory.read` (log 4). -/
def State.initial (c : Config) : State where
  v := Vector.replicate 16 0
  i := 0
  pc := BitVec.ofNat 16 c.loadAddr
  dt := 0
  st := 0
  stack := []
  mem := []
  fb := Vector.replicate 32 (Vector.replicate 64 false)
  run := .running
  reason := none
  awaiting := false
  progEnd := BitVec.ofNat 16 c.loadAddr
  cfg := c
  input := quietInput
  pending := []
  draws := 0

/-- The machine right after reset, in the default configuration of R8 (log 2). -/
def State.reset : State := State.initial Config.default

end Sys2Proof.Machine
end

