-- ==== Sys2Proof/Machine/Operands.lean ====
section
/-! DEFINITION. Operand forms: general registers (spec R11, R21), the register a shift reads (R176), a register as a
4-bit index (R108), the effective address (R57). -/

namespace Sys2Proof.Machine

/-- `V[x]` (R11). -/
def State.reg (s : State) (x : Nibble) : Byte := s.v[x.toNat]'x.isLt

/-- `V[x] <- b` (R11). No register is hardwired (R21). -/
def State.setReg (s : State) (x : Nibble) (b : Byte) : State := { s with v := s.v.set x.toNat b x.isLt }

/-- `V[k], V[k+1], ... <- bs`, ascending; what would fall past VF is dropped (R205 never reaches past it). -/
def State.setRegs (s : State) : Nat → List Byte → State
  | _, [] => s
  | k, b :: bs => ({ s with v := s.v.setIfInBounds k b } : State).setRegs (k + 1) bs

/-- The values of V0..Vx, ascending (R204). -/
def State.regsUpTo (s : State) (x : Nibble) : List Byte := s.v.toList.take (x.toNat + 1)

/-- The number of VF (R22). -/
def vF : Nibble := 0xF

/-- `ShiftSrc(x, y)` (R176): `SHIFT_SOURCE` chooses. -/
def shiftSrc (c : Config) (x y : Nibble) : Nibble :=
  match c.shiftSource with
  | .x => x
  | .y => y

/-- `NibbleIndex(v)` (R108): a value above 0x0F follows `WIDE_INDEX_POLICY`. -/
def nibbleIndex (c : Config) (v : Byte) : Except HaltReason Nibble :=
  if v.toNat ≤ 0x0F then .ok (v.setWidth 4)
  else
    match c.wideIndexPolicy with
    | .lowNibble => .ok (v.setWidth 4)
    | .halt => .error (.operandOutOfRange v)

/-- The low 12 bits of a 16-bit register, as an address (R9). -/
def mask12 (w : Word) : Nat := (w &&& 0x0FFF#16).toNat

/-- `EA(base, k) = (base & 0xFFF) + k`, not wrapped (R57; D3, C3, log 11). -/
def ea (base : Word) (k : Nat) : Nat := mask12 base + k

/-- A key number as a byte, `V[x] <- k` of R240. -/
def keyByte (k : Nibble) : Byte := k.setWidth 8

/-- `FONT_BASE + 5 * d` (R202). -/
def glyphAddress (c : Config) (d : Nibble) : Word := BitVec.ofNat 16 (c.fontBase + 5 * d.toNat)

end Sys2Proof.Machine
end

