-- ==== Sys2Proof/WellFormed.lean ====
section
/-! DEFINITION. What is refused before a program can run: a configuration that is not admitted (spec R8) and an
image that does not fit (R64). An `Instr` needs no check: every operand type has exactly its field's width (R81,
R83), so every term of `Instr` is the instruction of one word (R80). -/

namespace Sys2Proof

/-- R8: the font lies below the load address. -/
def Config.fontBelowLoad (c : Config) : Bool := decide (c.fontBase + fontSize ≤ c.loadAddr)

/-- R8: the load address lies in memory. -/
def Config.loadInMemory (c : Config) : Bool := decide (c.loadAddr < memSize)

/-- R8: the stack has at least one entry. -/
def Config.stackNonempty (c : Config) : Bool := decide (1 ≤ c.stackDepth)

/-- R8: a configuration is admitted only if `FONT_BASE + 80 <= LOAD_ADDR < MEM_SIZE` and `1 <= STACK_DEPTH`
(the spec's decision D15). -/
def Config.admitted (c : Config) : Bool := c.fontBelowLoad && c.loadInMemory && c.stackNonempty

/-- R64: the last byte of the image is written inside memory (C4). -/
def Config.imageFits (c : Config) (image : List Byte) : Bool := decide (c.loadAddr + image.length ≤ memSize)

end Sys2Proof
end

