-- ==== Sys2Proof/Machine/Ops.lean ====
section
/-! DEFINITION. The named operations over memory, the call stack, the framebuffer and PC, and the one way a block
takes its exception: the fatal halt (spec R265). -/

namespace Sys2Proof.Machine

/-! ### Memory -/

/-- Whether `a` lies in the font ROM (R52, R55). -/
def inFont (c : Config) (a : Nat) : Bool := decide (c.fontBase ≤ a) && decide (a < c.fontBase + fontSize)

/-- What an unlisted address reads as: the contents `Construct` gives memory (R290), the font table in the font ROM
and `INIT_MEM` elsewhere (R53; D16, log 4). -/
def resetByte (c : Config) (a : Nat) : Byte :=
  if inFont c a then c.fontTable.toList.getD (a - c.fontBase) 0
  else (c.initMem.lookup a).getD 0

/-- The byte at an address. -/
def Memory.read (c : Config) : Memory → Nat → Byte
  | [], a => resetByte c a
  | (b, v) :: m, a => if a = b then v else Memory.read c m a

/-- Storing a byte, keeping the canonical form: what an unlisted address reads as is not listed. -/
def Memory.write (c : Config) (a : Nat) (v : Byte) : Memory → Memory
  | [] => if v = resetByte c a then [] else [(a, v)]
  | (b, w) :: m =>
    if a < b then (if v = resetByte c a then (b, w) :: m else (a, v) :: (b, w) :: m)
    else if a = b then (if v = resetByte c a then m else (a, v) :: m)
    else (b, w) :: Memory.write c a v m

/-- The canonical form from an address on: strictly rising, inside memory, no entry equal to the reset contents. -/
def Memory.wfFrom (c : Config) : Nat → Memory → Bool
  | _, [] => true
  | lo, (a, v) :: m => decide (lo ≤ a) && decide (a < memSize) && decide (v ≠ resetByte c a) && Memory.wfFrom c (a + 1) m

/-- The canonical form of memory. -/
def Memory.wf (c : Config) (m : Memory) : Bool := Memory.wfFrom c 0 m

/-- Storing bytes at ascending addresses, with no check. -/
def Memory.writeAll (c : Config) : Nat → List Byte → Memory → Memory
  | _, [], m => m
  | a, b :: bs, m => Memory.writeAll c (a + 1) bs (Memory.write c a b m)

/-- The byte at an address of the state's memory, with no check and no side effect (R56). -/
def State.byteAt (s : State) (a : Nat) : Byte := Memory.read s.cfg s.mem a

/-- `MemRead(a, 1)` (R55). -/
def memRead (s : State) (a : Nat) : Except HaltReason Byte :=
  if a < memSize then .ok (s.byteAt a) else .error (.outOfBounds a)

/-- `MemWrite(a, 1, v)` (R55): out of range first, then the font ROM by `FONT_WRITE_POLICY`. -/
def memWrite (s : State) (a : Nat) (b : Byte) : Except HaltReason State :=
  if a < memSize then
    if inFont s.cfg a then
      match s.cfg.fontWritePolicy with
      | .halt => .error (.protectedWrite a)
      | .ignore => .ok s
      | .write => .ok { s with mem := Memory.write s.cfg a b s.mem }
    else .ok { s with mem := Memory.write s.cfg a b s.mem }
  else .error (.outOfBounds a)

/-- `n` bytes read at `EA(I, k), EA(I, k+1), ...`, ascending; the first failing access is the halt (R58, R264). -/
def readBlock (s : State) : Nat → Nat → Except HaltReason (List Byte)
  | _, 0 => .ok []
  | k, n + 1 =>
    match memRead s (ea s.i k) with
    | .error r => .error r
    | .ok b =>
      match readBlock s (k + 1) n with
      | .error r => .error r
      | .ok bs => .ok (b :: bs)

/-- Bytes written at `EA(I, k), EA(I, k+1), ...`, ascending; the first failing access is the halt (R58, R264). -/
def writeBlock : Nat → List Byte → State → Except HaltReason State
  | _, [], s => .ok s
  | k, b :: bs, s =>
    match memWrite s (ea s.i k) b with
    | .error r => .error r
    | .ok s' => writeBlock (k + 1) bs s'

/-- The end of FX55 and FX65 (R204, R205): `I` moves past the block only under `LDST_INCREMENT_I`. -/
def bumpIndex (x : Nibble) (s : State) : State :=
  if s.cfg.ldstIncrementI then { s with i := BitVec.ofNat 16 (s.i.toNat + x.toNat + 1) } else s

/-- The decimal digits of a byte, the most significant first (R203). -/
def bcdDigits (v : Byte) : List Byte :=
  [BitVec.ofNat 8 (v.toNat / 100), BitVec.ofNat 8 (v.toNat / 10 % 10), BitVec.ofNat 8 (v.toNat % 10)]

/-! ### The call stack -/

/-- `Push(a)` (R30). -/
def push (a : Word) (s : State) : Except HaltReason State :=
  if s.stack.length < s.cfg.stackDepth then .ok { s with stack := s.stack ++ [a] } else .error .stackOverflow

/-- `Pop()` (R31): the popped address and the state without it. -/
def pop (s : State) : Except HaltReason (Word × State) :=
  match s.stack.getLast? with
  | none => .error .stackUnderflow
  | some a => .ok (a, { s with stack := s.stack.dropLast })

/-! ### PC (R104) and the awaiting flag -/

/-- `Advance()`. -/
def advance (s : State) : State := { s with pc := s.pc + 2 }

/-- `Skip(c)`. -/
def skipIf (c : Bool) (s : State) : State := { s with pc := s.pc + (if c then 4 else 2) }

/-- `PC <- t`. -/
def jumpTo (t : Word) (s : State) : State := { s with pc := t }

/-- `Hold()`: PC stays on the instruction. -/
def hold (s : State) : State := { s with pc := s.pc }

/-- `awaiting <- b` (R35). -/
def setAwaiting (b : Bool) (s : State) : State := { s with awaiting := b }

/-! ### The framebuffer -/

/-- `FB[x, y]` (R11). -/
def Frame.pixel (f : Frame) (x : Fin 64) (y : Fin 32) : Bool := (f[y.val]'y.isLt)[x.val]'x.isLt

/-- `FB[x, y] <- b` (R11). -/
def Frame.setPixel (f : Frame) (x : Fin 64) (y : Fin 32) (b : Bool) : Frame :=
  f.set y.val ((f[y.val]'y.isLt).set x.val b x.isLt) y.isLt

/-- Every pixel clear (R120). -/
def Frame.clear : Frame := Vector.replicate 32 (Vector.replicate 64 false)

/-- The cell of sprite column `c`, row `r`, drawn at `(x0, y0)`, wrapped (R121). -/
def spriteCell (x0 y0 : Byte) (c r : Nat) : Fin 64 × Fin 32 :=
  (Fin.ofNat 64 (x0.toNat + c), Fin.ofNat 32 (y0.toNat + r))

/-- Sprite pixel `c` of a row byte: bit `7 - c` (R121). -/
def spriteBit (b : Byte) (c : Nat) : Bool := b.getLsbD (7 - c)

/-- The cells the 1 bits of row `r` touch, column 0 first. -/
def rowCells (x0 y0 : Byte) (r : Nat) (b : Byte) : List (Fin 64 × Fin 32) :=
  ((List.range 8).filter (spriteBit b)).map fun c => spriteCell x0 y0 c r

/-- The cells the 1 bits of the rows touch, from row `r` on, in the order R122 draws them. -/
def spriteCells (x0 y0 : Byte) : Nat → List Byte → List (Fin 64 × Fin 32)
  | _, [] => []
  | r, b :: bs => rowCells x0 y0 r b ++ spriteCells x0 y0 (r + 1) bs

/-- One pixel of R122's loop: a lit cell is a collision (R123); the cell is inverted. -/
def drawCell (acc : Frame × Bool) (p : Fin 64 × Fin 32) : Frame × Bool :=
  let lit := acc.1.pixel p.1 p.2
  (acc.1.setPixel p.1 p.2 (!lit), acc.2 || lit)

/-- The drawing loop of R122: the new framebuffer and the collision. -/
def drawSprite (x0 y0 : Byte) (rows : List Byte) (f : Frame) : Frame × Bool :=
  (spriteCells x0 y0 0 rows).foldl drawCell (f, false)

/-! ### Taking the exception: the fatal halt -/

/-- HALT ENTRY (R265, R100): every write of the step is discarded, so the state is the one before it; then
`run <- Halted; reason <- r; awaiting <- false`. PC keeps the halting instruction's address. There is no vector and no
handler, and no instruction returns from a halt (R266). -/
def takeHalt (r : HaltReason) (s0 : State) : State :=
  { s0 with run := .halted, reason := some r, awaiting := false }

/-- What an instruction answers (the halt of R13 is a next state). -/
abbrev Result := Host.Outcome State Fault Refusal

/-- An instruction that may raise a halt: the body's state, or the halt of the state before it (R13). -/
def orHalt (s0 : State) (body : Except HaltReason State) : Result :=
  match body with
  | .ok s => .next s
  | .error r => .next (takeHalt r s0)

/-! ### Fetching -/

/-- `FetchWord(PC)` (R60, R105). -/
def fetchWord (s : State) : Except HaltReason Word :=
  let a := mask12 s.pc
  if a + 1 < memSize then .ok (packWord (s.byteAt a) (s.byteAt (a + 1))) else .error (.outOfBounds (a + 1))

/-- Fetch and decode; executing `Unknown(w)` halts (R100, R106). -/
def fetchInstr (s : State) : Except HaltReason Instr :=
  match fetchWord s with
  | .error r => .error r
  | .ok w =>
    match decodeWord w with
    | .instr i => .ok i
    | .unknown w' => .error (.unknownInstruction w')

end Sys2Proof.Machine
end

