-- ==== Sys2Proof/Machine/Cycle.lean ====
section
/-! DEFINITION. What the step adds around an instruction: taking the host's next operation (spec R109, R110) and the
awaiting flag (R35, R100). -/

namespace Sys2Proof.Machine

/-- The host's next operation, and the state once it is taken. With nothing queued the host steps, with a free input
(R101; log 7, log 8). -/
def nextOp (s : State) : HostOp × State :=
  match s.pending with
  | op :: ops => (op, { s with pending := ops })
  | [] => (.step (Config.freeInput s.draws), { s with draws := s.draws + 1 })

/-- The step's inputs are sampled once, before anything reads them (R101, D33). -/
def sample (inp : StepInput) (s : State) : State := { s with input := inp }

/-- Whether the instruction sets the awaiting flag itself (R100). -/
def isKeyWait : Instr → Bool
  | .ldVxK _ => true
  | _ => false

/-- R100: `if ins is not LD_VX_K then awaiting <- false`. -/
def settleAwaiting (i : Instr) (s : State) : State := if isKeyWait i then s else setAwaiting false s

/-- The end of a step that executed `i`. -/
def afterExec (i : Instr) (o : Result) : Result :=
  match o with
  | .next s => .next (settleAwaiting i s)
  | .fault r => .fault r
  | .refused r => .refused r

/-- Whether a queued host operation is a tick. -/
def HostOp.isTick : HostOp → Bool
  | .tick => true
  | .step _ => false

end Sys2Proof.Machine
end

