-- ==== Sys2Proof/Machine/Flags.lean ====
section
/-! DEFINITION. Results and flags of the arithmetic family (spec R170, R171, R176, R180 to R184). The only flag is VF
(R37). Results are computed on naturals and then truncated (R170). -/

namespace Sys2Proof.Machine

/-- A flag as the byte VF receives. -/
def flagByte (b : Bool) : Byte := if b then 0x01 else 0x00

/-- `trunc_8(a + b)` (R174, R180). -/
def sum8 (a b : Byte) : Byte := BitVec.ofNat 8 (a.toNat + b.toNat)

/-- The carry of R180: the sum exceeds 0xFF. -/
def carryFlag (a b : Byte) : Byte := flagByte (decide (a.toNat + b.toNat > 0xFF))

/-- `trunc_8(a + 256 - b)` (R181, R183). -/
def difference8 (a b : Byte) : Byte := BitVec.ofNat 8 (a.toNat + 256 - b.toNat)

/-- NOT borrow of `a - b` (R181, R183): 1 when `a >= b`. -/
def noBorrowFlag (a b : Byte) : Byte := flagByte (decide (a.toNat ≥ b.toNat))

/-- `v >> 1` (R182). -/
def shiftedRight (v : Byte) : Byte := BitVec.ofNat 8 (v.toNat / 2)

/-- The bit a right shift drops, `v & 0x01` (R182). -/
def droppedLow (v : Byte) : Byte := flagByte (v.getLsbD 0)

/-- `trunc_8(v << 1)` (R184). -/
def shiftedLeft (v : Byte) : Byte := BitVec.ofNat 8 (v.toNat * 2)

/-- The bit a left shift drops, `v >> 7` (R184). -/
def droppedHigh (v : Byte) : Byte := flagByte (v.getLsbD 7)

/-- `WriteFlagged(x, r, f, order)` (R171): with `x = 15` the later write wins. -/
def writeFlagged (x : Nibble) (r f : Byte) (order : AluVfOrder) (s : State) : State :=
  match order with
  | .flagFirst => (s.setReg vF f).setReg x r
  | .flagLast => (s.setReg x r).setReg vF f

/-- `LogicFlag()` (R176): OR, AND and XOR clear VF only under `LOGIC_RESETS_VF`. -/
def logicFlag (s : State) : State :=
  if s.cfg.logicResetsVf then s.setReg vF 0x00 else s

end Sys2Proof.Machine
end

