-- ==== Sys2Proof/Machine/Alu.lean ====
section
/-! DEFINITION. Register loads, arithmetic, logic, shifts and random (spec 43). Every operand is read before any
write (R170, R186); all rules end with Advance. -/

namespace Sys2Proof.Machine

/-- 6XNN LD (R173). -/
def execLdImm (x : Nibble) (kk : Byte) (s : State) : Result := .next (advance (s.setReg x kk))

/-- 7XNN ADD (R174): no flag (D31, log 19). -/
def execAddImm (x : Nibble) (kk : Byte) (s : State) : Result :=
  .next (advance (s.setReg x (sum8 (s.reg x) kk)))

/-- 8XY0 LD (R175). -/
def execLdReg (x y : Nibble) (s : State) : Result := .next (advance (s.setReg x (s.reg y)))

/-- 8XY1 OR (R177). -/
def execOrReg (x y : Nibble) (s : State) : Result :=
  .next (advance (logicFlag (s.setReg x (s.reg x ||| s.reg y))))

/-- 8XY2 AND (R178). -/
def execAndReg (x y : Nibble) (s : State) : Result :=
  .next (advance (logicFlag (s.setReg x (s.reg x &&& s.reg y))))

/-- 8XY3 XOR (R179). -/
def execXorReg (x y : Nibble) (s : State) : Result :=
  .next (advance (logicFlag (s.setReg x (s.reg x ^^^ s.reg y))))

/-- 8XY4 ADD (R180). -/
def execAddReg (x y : Nibble) (s : State) : Result :=
  .next (advance
    (writeFlagged x (sum8 (s.reg x) (s.reg y)) (carryFlag (s.reg x) (s.reg y)) s.cfg.aluVfOrder s))

/-- 8XY5 SUB, X - Y (R181). -/
def execSubReg (x y : Nibble) (s : State) : Result :=
  .next (advance
    (writeFlagged x (difference8 (s.reg x) (s.reg y)) (noBorrowFlag (s.reg x) (s.reg y)) s.cfg.aluVfOrder s))

/-- 8XY7 SUBN, Y - X (R183). -/
def execSubnReg (x y : Nibble) (s : State) : Result :=
  .next (advance
    (writeFlagged x (difference8 (s.reg y) (s.reg x)) (noBorrowFlag (s.reg y) (s.reg x)) s.cfg.aluVfOrder s))

/-- 8XY6 SHR (R182): the flag is written first, whatever `ALU_VF_ORDER` (R171). -/
def execShr (x y : Nibble) (s : State) : Result :=
  let v := s.reg (shiftSrc s.cfg x y)
  .next (advance (writeFlagged x (shiftedRight v) (droppedLow v) .flagFirst s))

/-- 8XYE SHL (R184): the flag is written first, whatever `ALU_VF_ORDER` (R171). -/
def execShl (x y : Nibble) (s : State) : Result :=
  let v := s.reg (shiftSrc s.cfg x y)
  .next (advance (writeFlagged x (shiftedLeft v) (droppedHigh v) .flagFirst s))

/-- CXNN RND (R185): `rnd` is the step's input, a free value unless the host queued one (D19, log 7). -/
def execRnd (x : Nibble) (kk : Byte) (s : State) : Result :=
  .next (advance (s.setReg x (s.input.rnd &&& kk)))

end Sys2Proof.Machine
end

