-- ==== Sys2Proof/Machine/Control.lean ====
section
/-! DEFINITION. Control transfer and skips (spec 42). No skip writes a register or a flag (R144). -/

namespace Sys2Proof.Machine

/-- 00EE RET (R140). -/
def execRet (s : State) : Result :=
  orHalt s <|
    match pop s with
    | .error r => .error r
    | .ok (a, t) => .ok (jumpTo a t)

/-- 1NNN JP (R141). -/
def execJp (nnn : Addr12) (s : State) : Result := .next (jumpTo (nnn.setWidth 16) s)

/-- 2NNN CALL (R142): what is pushed is the address after the CALL (D10, log 13). -/
def execCall (nnn : Addr12) (s : State) : Result :=
  orHalt s <|
    match push (s.pc + 2) s with
    | .error r => .error r
    | .ok t => .ok (jumpTo (nnn.setWidth 16) t)

/-- BNNN JP V0 (R143): the sum is stored unmasked (D25, log 11). -/
def execJpV0 (nnn : Addr12) (s : State) : Result :=
  .next (jumpTo (nnn.setWidth 16 + (s.reg 0x0).setWidth 16) s)

/-- 3XNN SE (R145). -/
def execSeImm (x : Nibble) (kk : Byte) (s : State) : Result := .next (skipIf (decide (s.reg x = kk)) s)

/-- 4XNN SNE (R146). -/
def execSneImm (x : Nibble) (kk : Byte) (s : State) : Result := .next (skipIf (decide (s.reg x ≠ kk)) s)

/-- 5XY0 SE (R147). -/
def execSeReg (x y : Nibble) (s : State) : Result := .next (skipIf (decide (s.reg x = s.reg y)) s)

/-- 9XY0 SNE (R148). -/
def execSneReg (x y : Nibble) (s : State) : Result := .next (skipIf (decide (s.reg x ≠ s.reg y)) s)

end Sys2Proof.Machine
end

