-- ==== Sys2Proof/Machine/Display.lean ====
section
/-! DEFINITION. The display family (spec 41): 00E0 CLS and DXYN DRW. -/

namespace Sys2Proof.Machine

/-- 00E0 CLS (R120). -/
def execCls (s : State) : Result := .next (advance { s with fb := Frame.clear })

/-- The writes of DRW once its rows are read (R122): the framebuffer, then VF, always (R123). The coordinates are
those before VF is written. -/
def drawAndFlag (x y : Nibble) (rows : List Byte) (s : State) : State :=
  let drawn := drawSprite (s.reg x) (s.reg y) rows s.fb
  State.setReg { s with fb := drawn.1 } vF (flagByte drawn.2)

/-- DXYN DRW (R122, R124): every row is read before a pixel changes, so an access that halts changes none. -/
def execDrw (x y n : Nibble) (s : State) : Result :=
  orHalt s <|
    match readBlock s 0 n.toNat with
    | .error r => .error r
    | .ok rows => .ok (advance (drawAndFlag x y rows s))

end Sys2Proof.Machine
end

