-- ==== Sys2Proof/Machine/IndexMemory.lean ====
section
/-! DEFINITION. Index register, font address, BCD and register block transfers (spec 44). The source names these
operations only; their detail is the spec's from general knowledge (G7, G8, G9, log 15). No flag is written. -/

namespace Sys2Proof.Machine

/-- ANNN LD I (R200). -/
def execLdI (nnn : Addr12) (s : State) : Result := .next (advance { s with i := nnn.setWidth 16 })

/-- FX1E ADD I (R201): modulo 65536, VF unchanged (D24, log 19). -/
def execAddIVx (x : Nibble) (s : State) : Result :=
  .next (advance { s with i := s.i + (s.reg x).setWidth 16 })

/-- FX29 LD F (R202). -/
def execLdFVx (x : Nibble) (s : State) : Result :=
  orHalt s <|
    match nibbleIndex s.cfg (s.reg x) with
    | .error r => .error r
    | .ok d => .ok (advance { s with i := glyphAddress s.cfg d })

/-- FX33 LD B (R203): hundreds, tens, ones at EA(I,0), EA(I,1), EA(I,2). -/
def execLdBVx (x : Nibble) (s : State) : Result :=
  orHalt s <|
    match writeBlock 0 (bcdDigits (s.reg x)) s with
    | .error r => .error r
    | .ok t => .ok (advance t)

/-- FX55 LD [I] (R204): V0..Vx inclusive. -/
def execLdMemVx (x : Nibble) (s : State) : Result :=
  orHalt s <|
    match writeBlock 0 (s.regsUpTo x) s with
    | .error r => .error r
    | .ok t => .ok (advance (bumpIndex x t))

/-- FX65 LD Vx, [I] (R205): V0..Vx inclusive. -/
def execLdVxMem (x : Nibble) (s : State) : Result :=
  orHalt s <|
    match readBlock s 0 (x.toNat + 1) with
    | .error r => .error r
    | .ok bs => .ok (advance (bumpIndex x (s.setRegs 0 bs)))

end Sys2Proof.Machine
end

