-- ==== Sys2Proof/Machine/KeypadTimers.lean ====
section
/-! DEFINITION. Keypad and timer instructions (spec 45). The keypad is a pure read of the step's input (R236). -/

namespace Sys2Proof.Machine

/-- `in.keys[k]` (R101). -/
def keyDown (s : State) (k : Nibble) : Bool := s.input.keys[k.toNat]'k.isLt

/-- EX9E SKP (R237). -/
def execSkp (x : Nibble) (s : State) : Result :=
  orHalt s <|
    match nibbleIndex s.cfg (s.reg x) with
    | .error r => .error r
    | .ok k => .ok (skipIf (keyDown s k) s)

/-- EXA1 SKNP (R238). -/
def execSknp (x : Nibble) (s : State) : Result :=
  orHalt s <|
    match nibbleIndex s.cfg (s.reg x) with
    | .error r => .error r
    | .ok k => .ok (skipIf (!keyDown s k) s)

/-- FX07 LD Vx, DT (R239). -/
def execLdVxDt (x : Nibble) (s : State) : Result := .next (advance (s.setReg x s.dt))

/-- The two outcomes of the key wait (R240). -/
def keyWait (x : Nibble) (s : State) : State :=
  match s.input.lastKey with
  | some k => advance (setAwaiting false (s.setReg x (keyByte k)))
  | none => hold (setAwaiting true s)

/-- FX0A LD Vx, K (R240): with no key PC stays, so the next step executes this instruction again (D18, log 14). -/
def execLdVxK (x : Nibble) (s : State) : Result := .next (keyWait x s)

/-- FX15 LD DT, Vx (R242). -/
def execLdDtVx (x : Nibble) (s : State) : Result := .next (advance { s with dt := s.reg x })

/-- FX18 LD ST, Vx (R243). -/
def execLdStVx (x : Nibble) (s : State) : Result := .next (advance { s with st := s.reg x })

end Sys2Proof.Machine
end

