-- ==== Sys2Proof/Machine/Port.lean ====
section
/-! DEFINITION. The host's operations other than the step (spec R109): Construct, Load, Tick and the read-outs. -/

namespace Sys2Proof.Machine

/-- `Construct(config)` (R290): a configuration that is not admitted is refused (R8, U19). -/
def State.construct (c : Config) : Result :=
  if c.admitted then .next (State.initial c) else .refused .configNotAdmitted

/-- `Load(image)` (R64): bytes verbatim from the load address, or nothing at all. After `LoadTooLarge` there is no
state, so no step may follow (R292, U18). -/
def State.load (image : List Byte) (s : State) : Result :=
  if s.cfg.imageFits image then
    .next { s with
      mem := Memory.writeAll s.cfg s.cfg.loadAddr image s.mem
      progEnd := BitVec.ofNat 16 (s.cfg.loadAddr + image.length) }
  else .fault .loadTooLarge

/-- The boot order of R292: Construct, then Load, once (D27). -/
def boot (c : Config) (image : List Byte) : Result :=
  match State.construct c with
  | .next s => s.load image
  | .fault r => .fault r
  | .refused r => .refused r

/-- A timer decremented by 1, floored at 0 (R275). -/
def countDown (b : Byte) : Byte := if b.toNat > 0 then BitVec.ofNat 8 (b.toNat - 1) else b

/-- `Tick()` (R275), in any state, Halted among them (R276; D23). -/
def tick (s : State) : State := { s with dt := countDown s.dt, st := countDown s.st }

/-- `ReadFrame()` (R125). -/
def readFrame (s : State) : Frame := s.fb

/-- `SoundActive()` (R277). -/
def soundActive (s : State) : Bool := decide (s.st ≠ 0)

/-- What `ReadStatus()` returns (R109). -/
structure Status where
  run : RunState
  reason : Option HaltReason
  awaiting : Bool
  progEnd : Word
  deriving DecidableEq, Repr

/-- `ReadStatus()` (R109). -/
def readStatus (s : State) : Status := ⟨s.run, s.reason, s.awaiting, s.progEnd⟩

/-- What a step returns to the host (R102). The reason is present in every state a run reaches (R34). -/
inductive StepResult where
  | ok
  | awaitingKey
  | halted (reason : Option HaltReason)
  deriving DecidableEq, Repr

/-- The result of the step that left this state (R100, R102). -/
def State.result (s : State) : StepResult :=
  match s.run with
  | .halted => .halted s.reason
  | .running => if s.awaiting then .awaitingKey else .ok

/-- The numeric code of a halt reason (R260; labels only, D34). -/
def HaltReason.code : HaltReason → Nat
  | .outOfBounds _ => 1
  | .stackOverflow => 2
  | .stackUnderflow => 3
  | .unknownInstruction _ => 4
  | .protectedWrite _ => 5
  | .operandOutOfRange _ => 6

end Sys2Proof.Machine
end

