-- ==== Sys2Proof/Machine/Step.lean ====
section
/-! DEFINITION. One indivisible operation of the block (spec R63, R109): the host's tick, or its step (R100). -/

namespace Sys2Proof.Machine

/-- `Step(in)` (R100): nothing in Halted (R103); else fetch, decode, execute, and the awaiting flag. -/
def stepWith (inp : StepInput) (s : State) : Result :=
  match s.run with
  | .halted => .next s
  | .running =>
    match fetchInstr (sample inp s) with
    | .error r => .next (takeHalt r (sample inp s))
    | .ok i => afterExec i (exec i (sample inp s))

/-- The block carries out the host's next operation. -/
def step (s : State) : Host.Outcome State Fault Refusal :=
  match (nextOp s).1 with
  | .tick => .next (tick (nextOp s).2)
  | .step inp => stepWith inp (nextOp s).2

/-- The state in which the very next step fetches and runs the table word `w` (log 18): the word stands at PC, the
engine runs, and no queued tick comes first. At `PC & 0xFFF = 0xFFF` no word can be fetched (R60) and nothing is
stored. -/
def State.withFetchWord (s : State) (nbits w : Nat) : State :=
  { s with
    mem := if mask12 s.pc + 1 < memSize then Memory.writeAll s.cfg (mask12 s.pc) (tableWordBytes nbits w) s.mem else s.mem
    run := .running
    reason := none
    pending := s.pending.dropWhile HostOp.isTick }

end Sys2Proof.Machine
end

