-- ==== Sys2Proof/Safety.lean ====
section
/-! DEFINITION. The terms claims use: the invariant of a running block, the states a host can bring about, the parts
of a state and what "everything else is unchanged" means, and the spec's tables of who writes and who halts. -/

namespace Sys2Proof.Machine

/-! ### The invariant -/

/-- What holds of a block from construction on. -/
structure BlockInv (s : State) : Prop where
  /-- the block was constructed (R8) -/
  admitted : s.cfg.admitted = true
  /-- memory is in its canonical form -/
  memory : Memory.wf s.cfg s.mem = true
  /-- the font table was never overwritten (R54), unless the font region is RAM (R55) -/
  font : s.cfg.fontWritePolicy ≠ .write → ∀ k, k < fontSize → s.byteAt (s.cfg.fontBase + k) = s.cfg.fontTable.toList.getD k 0
  /-- the stack holds at most `STACK_DEPTH` entries (R29) -/
  stack : s.stack.length ≤ s.cfg.stackDepth
  /-- a reason is recorded exactly in Halted (R34) -/
  reason : s.run = .halted ↔ s.reason.isSome = true
  /-- a halted block awaits nothing (R265) -/
  awaiting : s.run = .halted → s.awaiting = false
  /-- the image lies in memory, from the load address on (R36, R64) -/
  progEnd : s.cfg.loadAddr ≤ s.progEnd.toNat ∧ s.progEnd.toNat ≤ memSize

/-- The states a host can bring about from a configuration (R109, R110, R292): construct, load at most once and
first, and then steps and ticks, in any interleaving and with any inputs. -/
inductive Reach (c : Config) : State → Prop where
  | constructed {s : State} : State.construct c = .next s → Reach c s
  | loaded {s : State} {image : List Byte} : boot c image = .next s → Reach c s
  /-- the host makes up its mind what to do next -/
  | planned {s : State} (ops : List HostOp) : Reach c s → Reach c { s with pending := ops }
  | stepped {s t : State} : Reach c s → step s = .next t → Reach c t

/-! ### Frames -/

/-- The parts of a state, each register, byte and pixel a part of its own. -/
inductive Part where
  | reg (x : Nibble)
  | i
  | pc
  | dt
  | st
  | stack
  | byte (a : Nat)
  | pixel (x : Fin 64) (y : Fin 32)
  | run
  | reason
  | awaiting
  | progEnd
  | cfg
  | input
  | pending
  | draws
  deriving DecidableEq, Repr

/-- A part is the same in two states. -/
def Part.Same (s t : State) : Part → Prop
  | .reg x => t.reg x = s.reg x
  | .i => t.i = s.i
  | .pc => t.pc = s.pc
  | .dt => t.dt = s.dt
  | .st => t.st = s.st
  | .stack => t.stack = s.stack
  | .byte a => t.byteAt a = s.byteAt a
  | .pixel x y => t.fb.pixel x y = s.fb.pixel x y
  | .run => t.run = s.run
  | .reason => t.reason = s.reason
  | .awaiting => t.awaiting = s.awaiting
  | .progEnd => t.progEnd = s.progEnd
  | .cfg => t.cfg = s.cfg
  | .input => t.input = s.input
  | .pending => t.pending = s.pending
  | .draws => t.draws = s.draws

/-- Every part is the same but, it may be, those named. -/
def SameExcept (may : Part → Prop) (s t : State) : Prop := ∀ p, ¬ may p → p.Same s t

/-! ### Tables of the spec -/

/-- The parts a halt writes (R265). -/
def Part.OfHalt (p : Part) : Prop := p = .run ∨ p = .reason ∨ p = .awaiting

/-- The byte parts of `n` bytes at `EA(I, 0)` and up (R57, R58). -/
def Part.InBlock (s : State) (n : Nat) (p : Part) : Prop := ∃ k, k < n ∧ p = .byte (ea s.i k)

/-- What an instruction may write, PC and the parts of a halt apart: the destinations of R23, the flag writers of
R22, the writers of I (R24), DT (R27), ST (R28), the stack (R29), memory (R51) and the framebuffer (R32). -/
def MayWrite (s : State) (p : Part) : Instr → Prop
  | .cls => ∃ px py, p = .pixel px py
  | .ret => p = .stack
  | .jp _ => False
  | .call _ => p = .stack
  | .seImm _ _ => False
  | .sneImm _ _ => False
  | .seReg _ _ => False
  | .ldImm x _ => p = .reg x
  | .addImm x _ => p = .reg x
  | .ldReg x _ => p = .reg x
  | .orReg x _ => p = .reg x ∨ (s.cfg.logicResetsVf = true ∧ p = .reg 0xF)
  | .andReg x _ => p = .reg x ∨ (s.cfg.logicResetsVf = true ∧ p = .reg 0xF)
  | .xorReg x _ => p = .reg x ∨ (s.cfg.logicResetsVf = true ∧ p = .reg 0xF)
  | .addReg x _ => p = .reg x ∨ p = .reg 0xF
  | .subReg x _ => p = .reg x ∨ p = .reg 0xF
  | .shr x _ => p = .reg x ∨ p = .reg 0xF
  | .subnReg x _ => p = .reg x ∨ p = .reg 0xF
  | .shl x _ => p = .reg x ∨ p = .reg 0xF
  | .sneReg _ _ => False
  | .ldI _ => p = .i
  | .jpV0 _ => False
  | .rnd x _ => p = .reg x
  | .drw _ _ _ => p = .reg 0xF ∨ ∃ px py, p = .pixel px py
  | .skp _ => False
  | .sknp _ => False
  | .ldVxDt x => p = .reg x
  | .ldVxK x => p = .reg x ∨ p = .awaiting
  | .ldDtVx _ => p = .dt
  | .ldStVx _ => p = .st
  | .addIVx _ => p = .i
  | .ldFVx _ => p = .i
  | .ldBVx _ => p.InBlock s 3
  | .ldMemVx x => p.InBlock s (x.toNat + 1) ∨ (s.cfg.ldstIncrementI = true ∧ p = .i)
  | .ldVxMem x => (∃ k : Nibble, k.toNat ≤ x.toNat ∧ p = .reg k) ∨ (s.cfg.ldstIncrementI = true ∧ p = .i)

/-- A range check of R55 failed while reading or writing a block: the first address past memory. -/
def HaltReason.PastMemory (r : HaltReason) : Prop := r = .outOfBounds memSize

/-- A write into the font ROM under `FONT_WRITE_POLICY = Halt` (R55). -/
def HaltReason.FontWrite (c : Config) (r : HaltReason) : Prop :=
  c.fontWritePolicy = .halt ∧ ∃ a, inFont c a = true ∧ r = .protectedWrite a

/-- A register value above 0x0F used as an index under `WIDE_INDEX_POLICY = Halt` (R108). -/
def HaltReason.WideIndex (c : Config) (b : Byte) (r : HaltReason) : Prop :=
  c.wideIndexPolicy = .halt ∧ b.toNat > 0x0F ∧ r = .operandOutOfRange b

/-- R261's table: the reasons an instruction may halt for once it is fetched. -/
def MayHalt (s : State) (r : HaltReason) : Instr → Prop
  | .ret => s.stack = [] ∧ r = .stackUnderflow
  | .call _ => s.stack.length ≥ s.cfg.stackDepth ∧ r = .stackOverflow
  | .drw _ _ _ => r.PastMemory
  | .ldBVx _ => r.PastMemory ∨ r.FontWrite s.cfg
  | .ldMemVx _ => r.PastMemory ∨ r.FontWrite s.cfg
  | .ldVxMem _ => r.PastMemory
  | .skp x => r.WideIndex s.cfg (s.reg x)
  | .sknp x => r.WideIndex s.cfg (s.reg x)
  | .ldFVx x => r.WideIndex s.cfg (s.reg x)
  | _ => False

/-- The instructions that set PC themselves: jumps, call, return and the skips (R104, R144). -/
def redirectsPc : Instr → Bool
  | .ret | .jp _ | .call _ | .jpV0 _ => true
  | .seImm _ _ | .sneImm _ _ | .seReg _ _ | .sneReg _ _ | .skp _ | .sknp _ => true
  | _ => false

/-- The instructions that read the step's input (R101, R236). -/
def readsInput : Instr → Bool
  | .rnd _ _ | .skp _ | .sknp _ | .ldVxK _ => true
  | _ => false

/-- The one instruction that writes ST (R28). -/
def setsSt : Instr → Bool
  | .ldStVx _ => true
  | _ => false

/-- A write access of R55 that does not complete: past memory, or into the font ROM under policy Halt. -/
def badWrite (c : Config) (a : Nat) : Prop := memSize ≤ a ∨ (inFont c a = true ∧ c.fontWritePolicy = .halt)

/-- The reason such an access halts with: past memory is checked first (R55, R264). -/
def badWriteReason (a : Nat) : HaltReason := if memSize ≤ a then .outOfBounds a else .protectedWrite a

/-- What a byte of memory holds after a program wrote `b` there and went on: a write into the font ROM is dropped
under policy Ignore (R55). -/
def afterWrite (s : State) (a : Nat) (b : Byte) : Byte :=
  if inFont s.cfg a = true ∧ s.cfg.fontWritePolicy = .ignore then s.byteAt a else b

/-- Cell `(px, py)` is touched by a 1 bit of the sprite of `n` rows at `EA(I, 0)` drawn at `(x0, y0)` (R121). -/
def Covered (s : State) (x0 y0 : Byte) (n : Nat) (px : Fin 64) (py : Fin 32) : Prop :=
  ∃ r c, r < n ∧ c < 8 ∧ (s.byteAt (ea s.i r)).getLsbD (7 - c) = true ∧
    px.val = (x0.toNat + c) % 64 ∧ py.val = (y0.toNat + r) % 32

/-- What an instruction that writes a result and a flag leaves in Vx and VF: with `x = 15` both land in VF and the
later one stays (R22, R171). -/
def ResultAndFlag (t : State) (x : Nibble) (order : AluVfOrder) (r f : Byte) : Prop :=
  (x ≠ 0xF → t.reg x = r ∧ t.reg 0xF = f) ∧
  (x = 0xF → t.reg 0xF = match order with
    | .flagFirst => r
    | .flagLast => f)

/-- `Advance()` (R104): PC moves on by exactly 2. What PC holds when that passes 0xFFFF is the spec's decision D3
(log 11) and is left to `Obligations.PlainInstructionsAdvanceByTwo`. -/
def Advanced (s t : State) : Prop := s.pc.toNat + 2 < 65536 → t.pc.toNat = s.pc.toNat + 2

/-- What OR, AND and XOR leave in Vx and VF: VF is cleared after the result under `LOGIC_RESETS_VF` alone
(R176, R177). -/
def LogicResult (s t : State) (x : Nibble) (r : Byte) : Prop :=
  (x ≠ 0xF → t.reg x = r) ∧
  (s.cfg.logicResetsVf = true → t.reg 0xF = 0) ∧
  (s.cfg.logicResetsVf = false → t.reg 0xF = if x = 0xF then r else s.reg 0xF)

/-- The engine runs, the host's next operation is a step with input `inp`, and `u` is what the instruction sees:
the operation taken, the input sampled (R100, R101; log 7, log 8). -/
def Stepping (s : State) (inp : StepInput) (u : State) : Prop :=
  s.run = .running ∧
  ((∃ ops, s.pending = .step inp :: ops ∧ u = { s with input := inp, pending := ops }) ∨
   (s.pending = [] ∧ inp = Config.freeInput s.draws ∧ u = { s with input := inp, draws := s.draws + 1 }))

/-- The word at PC (R60): the byte at the lower address is bits 15..8 (R59). -/
def WordAtPc (s : State) (w : Word) : Prop :=
  mask12 s.pc + 1 < memSize ∧
  w.toNat = 256 * (s.byteAt (mask12 s.pc)).toNat + (s.byteAt (mask12 s.pc + 1)).toNat

/-- `Unknown` exactly (R87): none of the 34 patterns. -/
def UnknownWord (w : Word) : Prop :=
  (w.toNat ≤ 0x0FFF ∧ w ≠ 0x00E0 ∧ w ≠ 0x00EE) ∨
  ((w.toNat / 0x1000 = 0x5 ∨ w.toNat / 0x1000 = 0x9) ∧ w.toNat % 0x10 ≠ 0) ∨
  (w.toNat / 0x1000 = 0x8 ∧ w.toNat % 0x10 ∈ [0x8, 0x9, 0xA, 0xB, 0xC, 0xD, 0xF]) ∨
  (w.toNat / 0x1000 = 0xE ∧ w.toNat % 0x100 ∉ [0x9E, 0xA1]) ∨
  (w.toNat / 0x1000 = 0xF ∧ w.toNat % 0x100 ∉ [0x07, 0x0A, 0x15, 0x18, 0x1E, 0x29, 0x33, 0x55, 0x65])

end Sys2Proof.Machine
end

