-- ==== Sys2Proof/Certificates/Slice0/Obligations.lean ====
section
/-! DEFINITION. The statements for the provers. Each docstring names the rule of spec/ it formalises. Where a clause
rests on a decision the spec marks as its own (D<n>, general knowledge G<n>), the docstring names it. Every statement
holds for every configuration (`s.cfg`), every queue of host operations and every step input. -/

open Sys2Proof Sys2Proof.Machine

/-! ### Encoding -/

/-- R85, R90 and the vectors of 95_test_vectors.md 2.1: at least one instruction of every primary family (the sixteen
top nibbles, R81, R84), written out. The bit patterns are the spec's general knowledge (G2, D6; log 6). -/
def Obligations.SampleWordsDecode : Prop :=
  decodeWord 0x00E0 = .instr .cls ∧ decodeWord 0x00EE = .instr .ret ∧
  decodeWord 0x1234 = .instr (.jp 0x234) ∧ decodeWord 0x2300 = .instr (.call 0x300) ∧
  decodeWord 0x332A = .instr (.seImm 3 0x2A) ∧ decodeWord 0x432A = .instr (.sneImm 3 0x2A) ∧
  decodeWord 0x5120 = .instr (.seReg 1 2) ∧ decodeWord 0x9120 = .instr (.sneReg 1 2) ∧
  decodeWord 0x7203 = .instr (.addImm 2 3) ∧ decodeWord 0xA2F0 = .instr (.ldI 0x2F0) ∧
  decodeWord 0x6A42 = .instr (.ldImm 0xA 0x42) ∧ decodeWord 0x8AB6 = .instr (.shr 0xA 0xB) ∧
  decodeWord 0x8125 = .instr (.subReg 1 2) ∧ decodeWord 0x8127 = .instr (.subnReg 1 2) ∧
  decodeWord 0xB123 = .instr (.jpV0 0x123) ∧ decodeWord 0xC30F = .instr (.rnd 3 0x0F) ∧
  decodeWord 0xD12F = .instr (.drw 1 2 0xF) ∧ decodeWord 0xE1A1 = .instr (.sknp 1) ∧
  decodeWord 0xF11E = .instr (.addIVx 1) ∧ decodeWord 0xF265 = .instr (.ldVxMem 2) ∧
  decodeWord 0x0000 = .unknown 0x0000 ∧ decodeWord 0x00E1 = .unknown 0x00E1 ∧ decodeWord 0x0123 = .unknown 0x0123 ∧
  decodeWord 0x5121 = .unknown 0x5121 ∧ decodeWord 0x9121 = .unknown 0x9121 ∧ decodeWord 0x8128 = .unknown 0x8128 ∧
  decodeWord 0xE19F = .unknown 0xE19F ∧ decodeWord 0xF100 = .unknown 0xF100 ∧ decodeWord 0xFFFF = .unknown 0xFFFF

/-- R80, R85, R90: the word of an instruction decodes to it, with every operand at every value, and so do its two
bytes in memory order (R59), leaving the bytes after them. -/
def Obligations.DecodeOfEncodeIsTheInstruction : Prop :=
  ∀ (i : Instr) (rest : List Byte),
    decodeWord (encode i) = .instr i ∧ decodeBytes (encodeBytes i ++ rest) = .ok (i, rest)

/-- R85: no bit of a recognised word is dropped: the instruction a word decodes to has that word and no other. This is
the strict matching of the fixed bits, the spec's decision D6, over the general-knowledge patterns G2 (log 6). -/
def Obligations.EncodeOfDecodeIsTheWord : Prop :=
  ∀ (w : Word) (i : Instr), decodeWord w = .instr i → encode i = w

/-- The table's match and mask columns (R90, opcode_table.json): a word decodes to an instruction of exactly those
rows it matches, so no two rows overlap. The columns are the general-knowledge patterns G2, matched strictly by the
spec's decision D6 (log 6). -/
def Obligations.DecodeFollowsTheTableRows : Prop :=
  ∀ (w : Word) (i : Instr),
    (decodeWord w = .instr i → w &&& i.row.mask = i.row.value) ∧
    (w &&& i.row.mask = i.row.value → ∃ j, decodeWord w = .instr j ∧ j.row = i.row)

/-- R86, R87: the words that decode to `Unknown` are exactly those listed, and `Unknown` carries the word. -/
def Obligations.UnknownWordsExactly : Prop :=
  ∀ w w' : Word, decodeWord w = .unknown w' ↔ UnknownWord w ∧ w' = w

/-! ### The step -/

/-- R100: when the word at PC decodes to `i`, the step is `exec i` of the state with the input sampled, and after it
the awaiting flag is cleared unless `i` is FX0A. -/
def Obligations.StepRunsTheDecodedInstruction : Prop :=
  ∀ (s u : State) (inp : StepInput) (w : Word) (i : Instr),
    Stepping s inp u → WordAtPc s w → decodeWord w = .instr i →
    step s = match exec i u with
      | .next t => .next (if isKeyWait i then t else { t with awaiting := false })
      | .fault r => .fault r
      | .refused r => .refused r

/-- R60, R105: a fetch at masked address 0xFFF halts with OutOfBounds(0x1000). That the halted state is the state
before with only the halt written is the spec's decision D21 (log 10); the recorded address is D5. -/
def Obligations.FetchAtLastByteHalts : Prop :=
  ∀ (s u : State) (inp : StepInput), Stepping s inp u → s.pc.toNat % 4096 = 0xFFF →
    step s = .next { u with run := .halted, reason := some (.outOfBounds 0x1000), awaiting := false }

/-- R106, R265: executing `Unknown(w)` halts with the word, and the host is told. The recorded word is D5 (log 16), that
nothing else is written and PC stays is D21 (log 10), and that the result is read off the state is log 9. -/
def Obligations.UnknownWordHalts : Prop :=
  ∀ (s u : State) (inp : StepInput) (w : Word), Stepping s inp u → WordAtPc s w → decodeWord w = .unknown w →
    ∃ t, step s = .next t ∧
      t = { u with run := .halted, reason := some (.unknownInstruction w), awaiting := false } ∧
      t.pc = s.pc ∧ t.result = .halted (some (.unknownInstruction w))

/-- R266, R103: Halted is terminal: however many operations the host issues, the block stays halted with the recorded
reason, and every step returns it. A step changes no state: only the model's own queue and draw counter move (log 8,
log 7); a tick changes the timers and the queue. That a step in Halted is answered is the spec's decision D22 (log 9),
that ticks land there D23 (log 8). -/
def Obligations.HaltedIsTerminal : Prop :=
  (∀ (n : Nat) (s : State), s.run = .halted →
    ∃ t, Sys2Proof.core.run n s = .next t ∧ t.result = .halted s.reason ∧
      SameExcept (· ∈ [.dt, .st, .pending, .draws]) s t) ∧
  (∀ (s : State) (inp : StepInput) (ops : List HostOp), s.run = .halted → s.pending = .step inp :: ops →
    step s = .next { s with pending := ops }) ∧
  (∀ s : State, s.run = .halted → s.pending = [] → step s = .next { s with draws := s.draws + 1 }) ∧
  (∀ (s : State) (ops : List HostOp), s.run = .halted → s.pending = .tick :: ops →
    ∃ t, step s = .next t ∧ SameExcept (· ∈ [.dt, .st, .pending]) s t)

/-- R275, R276: a tick decrements DT and ST by 1 each, floored at 0, and changes nothing else; that it does so in Halted
too is the spec's decision D23 (log 8). Timer decrementing is not performed by a step: whatever a step does (a halt of
it, and a step in Halted, among that), DT is as before unless it executed FX15, and ST unless it executed FX18; nor does
any other instruction by itself. -/
def Obligations.OnlyTicksCountDown : Prop :=
  (∀ (s : State) (ops : List HostOp), s.pending = .tick :: ops →
    ∃ t, step s = .next t ∧ t.dt.toNat = s.dt.toNat - 1 ∧ t.st.toNat = s.st.toNat - 1 ∧
      t.pending = ops ∧ SameExcept (· ∈ [.dt, .st, .pending]) s t) ∧
  (∀ s t : State, (∀ ops, s.pending ≠ .tick :: ops) → step s = .next t →
    (t.dt = s.dt ∨ s.run = .running ∧ ∃ x, WordAtPc s (encode (.ldDtVx x))) ∧
    (t.st = s.st ∨ s.run = .running ∧ ∃ x, WordAtPc s (encode (.ldStVx x)))) ∧
  (∀ (i : Instr) (s t : State), exec i s = .next t →
    (t.dt = s.dt ∨ ∃ x, i = .ldDtVx x) ∧ (t.st = s.st ∨ ∃ x, i = .ldStVx x))

/-- R35: after a step that completes, the awaiting flag is set exactly if it executed FX0A with no key available; the
result is then AwaitingKey (R102). -/
def Obligations.AwaitingExactlyAfterKeylessWait : Prop :=
  ∀ (s u t : State) (inp : StepInput), Stepping s inp u → step s = .next t → t.run = .running →
    ((t.awaiting = true ↔ inp.lastKey = none ∧ ∃ x, WordAtPc s (encode (.ldVxK x))) ∧
     (t.result = .awaitingKey ↔ t.awaiting = true))

/-- R13, R265 (D21, log 10): what halts leaves the state it began in, with only the run state, the reason and the
awaiting flag written: no register, byte, stack entry or pixel of it, and PC stays. This holds of an instruction, and of
a whole step of a running block, whether its fetch halts, its word is Unknown, or its instruction halts. -/
def Obligations.HaltIsPrecise : Prop :=
  (∀ (i : Instr) (s t : State), s.run = .running → exec i s = .next t → t.run = .halted →
    ∃ r, t = { s with run := .halted, reason := some r, awaiting := false }) ∧
  (∀ (s u t : State) (inp : StepInput), Stepping s inp u → step s = .next t → t.run = .halted →
    ∃ r, t = { u with run := .halted, reason := some r, awaiting := false })

/-- R261: which instructions can halt, and for which reasons; every other instruction completes. -/
def Obligations.HaltsOnlyAsTabled : Prop :=
  ∀ (i : Instr) (s t : State), s.run = .running → exec i s = .next t → t.run = .halted →
    ∃ r, t.reason = some r ∧ MayHalt s r i

/-- R102, R103, R265: every operation of the block answers a next state; a fatal condition is one too. -/
def Obligations.EveryOperationAnswers : Prop :=
  ∀ s : State, ∃ t, step s = .next t

/-- R104: an instruction that does not redirect PC and completes advances it by exactly 2 (modulo 65536: D3), but
for a key wait with no key, which holds it (R240; D18). -/
def Obligations.PlainInstructionsAdvanceByTwo : Prop :=
  ∀ (i : Instr) (s t : State), redirectsPc i = false → s.run = .running → exec i s = .next t → t.run = .running →
    t.pc = if isKeyWait i = true ∧ s.input.lastKey = none then s.pc else s.pc + 2

/-! ### Reset, construction, load -/

/-- R290, R291: what construction leaves. PC, the framebuffer, the font and Running are the source's; the zeros, the
empty stack, the false flag and the program end are the spec's decision D17 (log 3), `INIT_MEM` is D16 (log 4). -/
def Obligations.ConstructLeavesResetValues : Prop :=
  ∀ c : Config, c.admitted = true →
    ∃ s, State.construct c = .next s ∧ s.cfg = c ∧
      (∀ x, s.reg x = 0) ∧ s.i = 0 ∧ s.pc.toNat = c.loadAddr ∧ s.dt = 0 ∧ s.st = 0 ∧ s.stack = [] ∧
      (∀ px py, s.fb.pixel px py = false) ∧ s.run = .running ∧ s.reason = none ∧ s.awaiting = false ∧
      s.progEnd.toNat = c.loadAddr ∧
      (∀ k, k < 80 → s.byteAt (c.fontBase + k) = c.fontTable.toList.getD k 0) ∧
      (∀ a, ¬ (c.fontBase ≤ a ∧ a < c.fontBase + 80) → s.byteAt a = (c.initMem.lookup a).getD 0)

/-- R8 (D15): a configuration is constructed exactly if it is admitted, and the state after reset is that of the
default configuration of R8's table (log 2). -/
def Obligations.ConstructRefusesOtherConfigurations : Prop :=
  (∀ c : Config, (¬ (c.fontBase + 80 ≤ c.loadAddr ∧ c.loadAddr < 4096 ∧ 1 ≤ c.stackDepth)) →
    State.construct c = .refused .configNotAdmitted) ∧
  State.construct Config.default = .next State.reset

/-- R69: after a successful load and before any step, memory from the load address on holds the image, byte for
byte. -/
def Obligations.LoadRoundTrip : Prop :=
  ∀ (c : Config) (image : List Byte) (s : State), boot c image = .next s →
    ∀ (k : Nat) (h : k < image.length), s.byteAt (c.loadAddr + k) = image[k]

/-- R64 (C1, C4): a load succeeds exactly when the image fits; then it writes the image's bytes and the program end
(exclusive: D27) and nothing else; otherwise it fails with LoadTooLarge and there is no state to run. -/
def Obligations.LoadSucceedsExactlyWhenItFits : Prop :=
  ∀ (s : State) (image : List Byte),
    (s.cfg.loadAddr + image.length ≤ 4096 →
      ∃ t, s.load image = .next t ∧ t.progEnd.toNat = s.cfg.loadAddr + image.length ∧
        SameExcept (fun p => p = .progEnd ∨ ∃ k, k < image.length ∧ p = .byte (s.cfg.loadAddr + k)) s t) ∧
    (4096 < s.cfg.loadAddr + image.length → s.load image = .fault .loadTooLarge)

/-! ### Invariants and whole-machine rules -/

/-- The invariant holds of the state after reset and of every constructed state. -/
def Obligations.InvariantHoldsAtReset : Prop :=
  BlockInv State.reset ∧ ∀ (c : Config) (s : State), State.construct c = .next s → BlockInv s

/-- Every operation of the block keeps the invariant: the canonical form of memory, the font table (R54), the stack
depth (R29), the reason exactly in Halted (R34), no wait in Halted (R265), the admitted configuration (R8). -/
def Obligations.EveryOperationKeepsTheInvariant : Prop :=
  ∀ s t : State, BlockInv s → step s = .next t → BlockInv t

/-- Every state a host can bring about, by construction, at most one load, which comes first (the spec's decision D27,
log 17), and any interleaving of steps and ticks with any inputs (log 8), meets the invariant and has the configuration
it was constructed with. -/
def Obligations.ReachableStatesMeetTheInvariant : Prop :=
  ∀ (c : Config) (s : State), Reach c s → BlockInv s ∧ s.cfg = c

/-- R54: the font table is never overwritten by program execution, in any state and by any instruction, unless the
configuration makes the region RAM (R55, D14). -/
def Obligations.FontIsNeverOverwritten : Prop :=
  ∀ (i : Instr) (s t : State) (k : Nat), s.cfg.fontWritePolicy ≠ .write → exec i s = .next t → k < 80 →
    t.byteAt (s.cfg.fontBase + k) = s.byteAt (s.cfg.fontBase + k)

/-- R34: `reason` is none while Running, is written once, by the operation that halts, and nothing clears it. -/
def Obligations.ReasonIsWrittenOnce : Prop :=
  State.reset.reason = none ∧
  ∀ s t : State, BlockInv s → step s = .next t →
    (t.run = .running → t.reason = none) ∧ (t.run = .halted → t.reason.isSome = true) ∧
    (s.run = .halted → t.reason = s.reason)

/-- The frame of all 34 instructions at once, by the writers the spec lists for each piece of state (R22 to R29, R32,
R51): whatever an instruction does, it changes PC, its own destinations, and on a halt the halt's parts. -/
def Obligations.OnlyTheNamedWritersWrite : Prop :=
  ∀ (i : Instr) (s t : State), exec i s = .next t →
    SameExcept (fun p => p = .pc ∨ (p.OfHalt ∧ t.run = .halted) ∨ MayWrite s p i) s t

/-- R28, R36, R38: no instruction reads ST or the program end: with other values in them every instruction does the
same, FX18's write of ST included. -/
def Obligations.NoInstructionReadsStOrProgEnd : Prop :=
  ∀ (i : Instr) (s t : State) (b : Byte) (e : Word), exec i s = .next t →
    exec i { s with st := b, progEnd := e } =
      .next { t with progEnd := e, st := if setsSt i then t.st else b }

/-- R101, R236: the step input is read by CXNN, EX9E, EXA1 and FX0A alone: every other instruction does the same
under any input. -/
def Obligations.OnlyFourInstructionsReadTheInput : Prop :=
  ∀ (i : Instr) (s t : State) (inp : StepInput), readsInput i = false → exec i s = .next t →
    exec i { s with input := inp } = .next { t with input := inp }

/-! ### The call stack -/

/-- R30: pushes succeed while the stack holds fewer than STACK_DEPTH entries, each on top of the last, and the next
one halts: STACK_DEPTH pushes onto an empty stack succeed and one more is an overflow. -/
def Obligations.StackHoldsItsDepth : Prop :=
  ∀ (s : State) (addrs : List Word), s.stack = [] →
    (addrs.length ≤ s.cfg.stackDepth → addrs.foldlM (fun u a => push a u) s = .ok { s with stack := addrs }) ∧
    (s.cfg.stackDepth < addrs.length → addrs.foldlM (fun u a => push a u) s = .error .stackOverflow)

/-- R31: Pop on an empty stack is an underflow; otherwise it removes and returns the address pushed last. -/
def Obligations.PopReturnsTheLastPushed : Prop :=
  ∀ (s t : State) (a : Word),
    (s.stack = [] → pop s = .error .stackUnderflow) ∧ (push a s = .ok t → pop t = .ok (a, s))

/-- R140: RET goes to the popped address itself, or halts with StackUnderflow. -/
def Obligations.RetGoesToThePoppedAddress : Prop :=
  ∀ (s : State) (st : List Word) (a : Word),
    (s.stack = st ++ [a] → ∃ t, exec .ret s = .next t ∧ t.pc = a ∧ t.stack = st ∧ SameExcept (· ∈ [.pc, .stack]) s t) ∧
    (s.stack = [] → ∃ t, exec .ret s = .next t ∧ t.run = .halted ∧ t.reason = some .stackUnderflow)

/-- R141: JP goes to its 12-bit target; no flag, no exception. -/
def Obligations.JpGoesToItsTarget : Prop :=
  ∀ (s : State) (nnn : Addr12), ∃ t, exec (.jp nnn) s = .next t ∧ t.pc.toNat = nnn.toNat ∧ SameExcept (· = .pc) s t

/-- R143: JP V0 goes to nnn + V0, stored unmasked (D25, log 11). -/
def Obligations.JpV0AddsV0 : Prop :=
  ∀ (s : State) (nnn : Addr12), ∃ t, exec (.jpV0 nnn) s = .next t ∧ t.pc.toNat = nnn.toNat + (s.reg 0).toNat ∧
    SameExcept (· = .pc) s t

/-- R142: CALL pushes the address after it (D10, log 13) and goes to its target, or halts with StackOverflow, PC and
the stack unchanged. -/
def Obligations.CallPushesAndJumps : Prop :=
  ∀ (s : State) (nnn : Addr12),
    (s.stack.length < s.cfg.stackDepth →
      ∃ t, exec (.call nnn) s = .next t ∧ t.pc.toNat = nnn.toNat ∧ t.stack = s.stack ++ [s.pc + 2] ∧
        SameExcept (· ∈ [.pc, .stack]) s t) ∧
    (s.stack.length = s.cfg.stackDepth →
      ∃ t, exec (.call nnn) s = .next t ∧ t.run = .halted ∧ t.reason = some .stackOverflow ∧
        SameExcept Part.OfHalt s t)

/-- R140, R142 (D10): a CALL that succeeds, and then RET, resume after the CALL with everything else as before. -/
def Obligations.CallThenRetResumesAfterTheCall : Prop :=
  ∀ (s : State) (nnn : Addr12), s.stack.length < s.cfg.stackDepth →
    ∃ t u, exec (.call nnn) s = .next t ∧ exec .ret t = .next u ∧ u.pc = s.pc + 2 ∧ SameExcept (· = .pc) s u

/-! ### Skips -/

/-- R144 to R148: the four comparisons; the skip distance of one word is general knowledge (G6, D30, log 13), the
wrap D3. No skip writes anything but PC. -/
def Obligations.SkipsCompareAndSkip : Prop :=
  ∀ (s : State) (x y : Nibble) (kk : Byte),
    (∃ t, exec (.seImm x kk) s = .next t ∧ t.pc = (if s.reg x = kk then s.pc + 4 else s.pc + 2) ∧ SameExcept (· = .pc) s t) ∧
    (∃ t, exec (.sneImm x kk) s = .next t ∧ t.pc = (if s.reg x = kk then s.pc + 2 else s.pc + 4) ∧ SameExcept (· = .pc) s t) ∧
    (∃ t, exec (.seReg x y) s = .next t ∧ t.pc = (if s.reg x = s.reg y then s.pc + 4 else s.pc + 2) ∧ SameExcept (· = .pc) s t) ∧
    (∃ t, exec (.sneReg x y) s = .next t ∧ t.pc = (if s.reg x = s.reg y then s.pc + 2 else s.pc + 4) ∧ SameExcept (· = .pc) s t)

/-- R237, R238, R108: SKP and SKNP test the key whose number Vx holds; above 0x0F the low nibble under policy
LowNibble (D13). The skip distance is D30. -/
def Obligations.KeySkipsTestTheKey : Prop :=
  ∀ (s : State) (x k : Nibble), ((s.reg x).toNat ≤ 0x0F ∨ s.cfg.wideIndexPolicy = .lowNibble) →
    k.toNat = (s.reg x).toNat % 16 →
    (∃ t, exec (.skp x) s = .next t ∧ t.pc = (if s.input.keys[k.toNat]'k.isLt = true then s.pc + 4 else s.pc + 2) ∧
      SameExcept (· = .pc) s t) ∧
    (∃ t, exec (.sknp x) s = .next t ∧ t.pc = (if s.input.keys[k.toNat]'k.isLt = true then s.pc + 2 else s.pc + 4) ∧
      SameExcept (· = .pc) s t)

/-- R108 under WIDE_INDEX_POLICY = Halt (D13): EX9E, EXA1 and FX29 halt with OperandOutOfRange(Vx) when Vx is above
0x0F, and nothing but the halt is written (D21). -/
def Obligations.WideIndexHaltsUnderPolicyHalt : Prop :=
  ∀ (s : State) (x : Nibble) (i : Instr), s.cfg.wideIndexPolicy = .halt → (s.reg x).toNat > 0x0F →
    i ∈ [.skp x, .sknp x, .ldFVx x] →
    exec i s = .next { s with run := .halted, reason := some (.operandOutOfRange (s.reg x)), awaiting := false }

/-! ### Loads, arithmetic, logic, shifts, random -/

/-- R173, R175: LD Vx, kk and LD Vx, Vy. -/
def Obligations.LoadsWriteVx : Prop :=
  ∀ (s : State) (x y : Nibble) (kk : Byte),
    (∃ t, exec (.ldImm x kk) s = .next t ∧ t.reg x = kk ∧ Advanced s t ∧ SameExcept (· ∈ [.pc, .reg x]) s t) ∧
    (∃ t, exec (.ldReg x y) s = .next t ∧ t.reg x = s.reg y ∧ Advanced s t ∧ SameExcept (· ∈ [.pc, .reg x]) s t)

/-- R174: ADD Vx, kk wraps modulo 256 and leaves VF alone (D31, log 19). -/
def Obligations.AddImmediateWrapsWithoutFlag : Prop :=
  ∀ (s : State) (x : Nibble) (kk : Byte),
    ∃ t, exec (.addImm x kk) s = .next t ∧ (t.reg x).toNat = ((s.reg x).toNat + kk.toNat) % 256 ∧
      SameExcept (· ∈ [.pc, .reg x]) s t

/-- R177, R178, R179, under either value of LOGIC_RESETS_VF (R176). -/
def Obligations.LogicInstructionsCombineBits : Prop :=
  ∀ (s : State) (x y : Nibble),
    (∃ t, exec (.orReg x y) s = .next t ∧ LogicResult s t x (s.reg x ||| s.reg y) ∧
      Advanced s t ∧ SameExcept (· ∈ [.pc, .reg x, .reg 0xF]) s t) ∧
    (∃ t, exec (.andReg x y) s = .next t ∧ LogicResult s t x (s.reg x &&& s.reg y) ∧
      Advanced s t ∧ SameExcept (· ∈ [.pc, .reg x, .reg 0xF]) s t) ∧
    (∃ t, exec (.xorReg x y) s = .next t ∧ LogicResult s t x (s.reg x ^^^ s.reg y) ∧
      Advanced s t ∧ SameExcept (· ∈ [.pc, .reg x, .reg 0xF]) s t)

/-- R180: ADD Vx, Vy: the truncated sum, VF the carry, always written; with x = 15 by ALU_VF_ORDER (R171). -/
def Obligations.AddSetsCarry : Prop :=
  ∀ (s : State) (x y : Nibble),
    ∃ t, exec (.addReg x y) s = .next t ∧
      ResultAndFlag t x s.cfg.aluVfOrder (s.reg x + s.reg y) (if (s.reg x).toNat + (s.reg y).toNat > 0xFF then 1 else 0) ∧
      Advanced s t ∧ SameExcept (· ∈ [.pc, .reg x, .reg 0xF]) s t

/-- R181, R183: SUB Vx, Vy is the wrapped difference X - Y and SUBN Vx, Vy the wrapped Y - X; VF is 1 when no borrow
occurred (equal is no borrow) and 0 when one did. -/
def Obligations.SubtractsSetNoBorrow : Prop :=
  ∀ (s : State) (x y : Nibble),
    (∃ t, exec (.subReg x y) s = .next t ∧
      ResultAndFlag t x s.cfg.aluVfOrder (s.reg x - s.reg y) (if (s.reg y).toNat ≤ (s.reg x).toNat then 1 else 0) ∧
      Advanced s t ∧ SameExcept (· ∈ [.pc, .reg x, .reg 0xF]) s t) ∧
    (∃ t, exec (.subnReg x y) s = .next t ∧
      ResultAndFlag t x s.cfg.aluVfOrder (s.reg y - s.reg x) (if (s.reg x).toNat ≤ (s.reg y).toNat then 1 else 0) ∧
      Advanced s t ∧ SameExcept (· ∈ [.pc, .reg x, .reg 0xF]) s t)

/-- R182, R184: SHR and SHL shift the source (Vx, or Vy under SHIFT_SOURCE = Y, R176) by one, VF its old bit 0 or its
old bit 7; the flag is written first, whatever ALU_VF_ORDER, so x = 15 ends with the shifted value. -/
def Obligations.ShiftsDropOneBitIntoVf : Prop :=
  ∀ (s : State) (x y src : Nibble),
    (s.cfg.shiftSource = .x ∧ src = x) ∨ (s.cfg.shiftSource = .y ∧ src = y) →
    (∃ t, exec (.shr x y) s = .next t ∧
      ResultAndFlag t x .flagFirst (s.reg src >>> 1) (s.reg src &&& 1) ∧
      Advanced s t ∧ SameExcept (· ∈ [.pc, .reg x, .reg 0xF]) s t) ∧
    (∃ t, exec (.shl x y) s = .next t ∧
      ResultAndFlag t x .flagFirst (s.reg src <<< 1) (s.reg src >>> 7) ∧
      Advanced s t ∧ SameExcept (· ∈ [.pc, .reg x, .reg 0xF]) s t)

/-- R185: RND loads the step's random byte masked; the byte is any value (D19, log 7). -/
def Obligations.RandomIsMasked : Prop :=
  ∀ (s : State) (x : Nibble) (kk : Byte),
    ∃ t, exec (.rnd x kk) s = .next t ∧ t.reg x = s.input.rnd &&& kk ∧ SameExcept (· ∈ [.pc, .reg x]) s t

/-! ### Index, BCD, block transfers -/

/-- R200: LD I, nnn. -/
def Obligations.LoadIndexWritesI : Prop :=
  ∀ (s : State) (nnn : Addr12),
    ∃ t, exec (.ldI nnn) s = .next t ∧ t.i.toNat = nnn.toNat ∧ Advanced s t ∧ SameExcept (· ∈ [.pc, .i]) s t

/-- R201: ADD I, Vx, modulo 65536, not masked, VF unchanged (D24, log 19). -/
def Obligations.AddIndexWrapsAt65536 : Prop :=
  ∀ (s : State) (x : Nibble),
    ∃ t, exec (.addIVx x) s = .next t ∧ t.i.toNat = (s.i.toNat + (s.reg x).toNat) % 65536 ∧
      SameExcept (· ∈ [.pc, .i]) s t

/-- R202, R108: LD F, Vx sets I to the glyph's address FONT_BASE + 5 d; above 0x0F the low nibble under policy
LowNibble (D13). -/
def Obligations.LoadGlyphAddress : Prop :=
  ∀ (s : State) (x : Nibble), ((s.reg x).toNat ≤ 0x0F ∨ s.cfg.wideIndexPolicy = .lowNibble) →
    s.cfg.admitted = true →
    ∃ t, exec (.ldFVx x) s = .next t ∧ t.i.toNat = s.cfg.fontBase + 5 * ((s.reg x).toNat % 16) ∧
      SameExcept (· ∈ [.pc, .i]) s t

/-- R203: LD B, Vx stores the three decimal digits, hundreds first (D12, G8, log 15), at EA(I,0) to EA(I,2), I
unchanged; a write into the font ROM is dropped under policy Ignore (R55). -/
def Obligations.BcdStoresDecimalDigits : Prop :=
  ∀ (s : State) (x : Nibble), Memory.wf s.cfg s.mem = true → (∀ k, k < 3 → ¬ badWrite s.cfg (ea s.i k)) →
    ∃ t h d u, exec (.ldBVx x) s = .next t ∧ (s.reg x).toNat = 100 * h + 10 * d + u ∧ h ≤ 2 ∧ d ≤ 9 ∧ u ≤ 9 ∧
      t.byteAt (ea s.i 0) = afterWrite s (ea s.i 0) (BitVec.ofNat 8 h) ∧
      t.byteAt (ea s.i 1) = afterWrite s (ea s.i 1) (BitVec.ofNat 8 d) ∧
      t.byteAt (ea s.i 2) = afterWrite s (ea s.i 2) (BitVec.ofNat 8 u) ∧
      SameExcept (fun p => p = .pc ∨ p.InBlock s 3) s t

/-- R204: LD [I], Vx stores V0 to Vx (G7, log 15) at ascending addresses; I moves past them under LDST_INCREMENT_I
alone. -/
def Obligations.DumpStoresTheRegisters : Prop :=
  ∀ (s : State) (x : Nibble), Memory.wf s.cfg s.mem = true →
    (∀ k, k ≤ x.toNat → ¬ badWrite s.cfg (ea s.i k)) →
    ∃ t, exec (.ldMemVx x) s = .next t ∧
      (∀ k : Nibble, k.toNat ≤ x.toNat → t.byteAt (ea s.i k.toNat) = afterWrite s (ea s.i k.toNat) (s.reg k)) ∧
      t.i.toNat = (if s.cfg.ldstIncrementI = true then (s.i.toNat + x.toNat + 1) % 65536 else s.i.toNat) ∧
      SameExcept (fun p => p ∈ [.pc, .i] ∨ p.InBlock s (x.toNat + 1)) s t

/-- R55, R58, R203, R204, R264 (D5, D14, D21, D32): FX33 and FX55 halt at the first address they may not write, with
OutOfBounds before ProtectedWrite, and none of their bytes is written. -/
def Obligations.StoresHaltAtTheFirstBadAddress : Prop :=
  ∀ (s : State) (x : Nibble) (i : Instr) (n k : Nat), (i = .ldBVx x ∧ n = 3 ∨ i = .ldMemVx x ∧ n = x.toNat + 1) →
    k < n → (∀ j, j < k → ¬ badWrite s.cfg (ea s.i j)) → badWrite s.cfg (ea s.i k) →
    exec i s = .next { s with
      run := .halted
      reason := some (if 4096 ≤ ea s.i k then .outOfBounds (ea s.i k) else .protectedWrite (ea s.i k))
      awaiting := false }

/-- R205: LD Vx, [I] loads V0 to Vx (G7) from ascending addresses, the font ROM readable; I as in R204. -/
def Obligations.LoadBlockLoadsTheRegisters : Prop :=
  ∀ (s : State) (x : Nibble), ea s.i x.toNat < 4096 →
    ∃ t, exec (.ldVxMem x) s = .next t ∧
      (∀ k : Nibble, t.reg k = if k.toNat ≤ x.toNat then s.byteAt (ea s.i k.toNat) else s.reg k) ∧
      t.i.toNat = (if s.cfg.ldstIncrementI = true then (s.i.toNat + x.toNat + 1) % 65536 else s.i.toNat) ∧
      SameExcept (fun p => p ∈ [.pc, .i] ∨ ∃ k : Nibble, k.toNat ≤ x.toNat ∧ p = .reg k) s t

/-- R55, R122, R205 (D5, D21): DRW and FX65 halt with OutOfBounds(0x1000) when a byte they read lies past memory, and
write nothing. -/
def Obligations.ReadsPastMemoryHalt : Prop :=
  ∀ (s : State) (x y n : Nibble) (i : Instr) (len : Nat),
    (i = .drw x y n ∧ len = n.toNat ∨ i = .ldVxMem x ∧ len = x.toNat + 1) → 4096 < ea s.i len →
    exec i s = .next { s with run := .halted, reason := some (.outOfBounds 0x1000), awaiting := false }

/-- R204, R205: what FX55 stored FX65 loads back: with I where it was and any registers, V0 to Vx are restored. -/
def Obligations.DumpThenLoadRestores : Prop :=
  ∀ (s t : State) (x : Nibble) (regs : Vector Byte 16), Memory.wf s.cfg s.mem = true →
    (∀ k, k ≤ x.toNat → ea s.i k < 4096 ∧ (inFont s.cfg (ea s.i k) = true → s.cfg.fontWritePolicy = .write)) →
    exec (.ldMemVx x) s = .next t →
    ∃ u, exec (.ldVxMem x) { t with i := s.i, v := regs } = .next u ∧
      ∀ k : Nibble, k.toNat ≤ x.toNat → u.reg k = s.reg k

/-- R67, R295 (D29): the bytes FX55 wrote are what a later fetch reads, with nothing in between: a word fetched from
two of its addresses is those two registers. -/
def Obligations.StoredBytesAreFetched : Prop :=
  ∀ (s : State) (x k : Nibble) (p : Word), Memory.wf s.cfg s.mem = true →
    (∀ j, j ≤ x.toNat → ¬ badWrite s.cfg (ea s.i j) ∧ inFont s.cfg (ea s.i j) = false) →
    k.toNat < x.toNat → mask12 p = ea s.i k.toNat →
    ∃ t, exec (.ldMemVx x) s = .next t ∧ fetchWord { t with pc := p } = .ok (packWord (s.reg k) (s.reg (k + 1)))

/-! ### Display -/

/-- R120: CLS clears every pixel, and nothing else changes but PC: VF is unchanged. -/
def Obligations.ClsClearsEveryPixel : Prop :=
  ∀ s : State, ∃ t, exec .cls s = .next t ∧ (∀ px py, t.fb.pixel px py = false) ∧
    Advanced s t ∧ SameExcept (fun p => p = .pc ∨ ∃ px py, p = .pixel px py) s t

/-- R121, R122, R123, R124, R126: DRW inverts exactly the cells its sprite's 1 bits cover, wrapped both ways, and VF
is 1 exactly when a covered cell was lit, else 0. Bit 7 is the leftmost pixel (D20, G4, log 15). With n = 0 no cell
is covered. -/
def Obligations.DrawXorsAndReportsCollision : Prop :=
  ∀ (s : State) (x y n : Nibble), ea s.i n.toNat ≤ 4096 →
    ∃ t, exec (.drw x y n) s = .next t ∧
      (∀ px py, (t.fb.pixel px py = s.fb.pixel px py ↔ ¬ Covered s (s.reg x) (s.reg y) n.toNat px py)) ∧
      ((∃ px py, Covered s (s.reg x) (s.reg y) n.toNat px py ∧ s.fb.pixel px py = true) → t.reg 0xF = 1) ∧
      (¬ (∃ px py, Covered s (s.reg x) (s.reg y) n.toNat px py ∧ s.fb.pixel px py = true) → t.reg 0xF = 0) ∧
      SameExcept (fun p => p ∈ [.pc, .reg 0xF] ∨ ∃ px py, p = .pixel px py) s t

/-- R122 (E6): the same sprite drawn twice at the same place (VF is neither coordinate) leaves the framebuffer as it
was, and if it covers any cell the second drawing or the first reports a collision. -/
def Obligations.DrawingTwiceRestoresTheFrame : Prop :=
  ∀ (s : State) (x y n : Nibble), ea s.i n.toNat ≤ 4096 → x ≠ 0xF → y ≠ 0xF →
    ∃ t u, exec (.drw x y n) s = .next t ∧ exec (.drw x y n) t = .next u ∧
      (∀ px py, u.fb.pixel px py = s.fb.pixel px py) ∧
      ((∃ px py, Covered s (s.reg x) (s.reg y) n.toNat px py) → t.reg 0xF = 1 ∨ u.reg 0xF = 1)

/-! ### Keypad and timers -/

/-- R240 (D18, log 14): FX0A with a key loads it and advances; with no key only the awaiting flag is set and PC
stays. -/
def Obligations.KeyWaitLoadsOrHolds : Prop :=
  ∀ (s : State) (x : Nibble),
    (∀ k, s.input.lastKey = some k → ∃ t, exec (.ldVxK x) s = .next t ∧ (t.reg x).toNat = k.toNat ∧
      t.pc = s.pc + 2 ∧ t.awaiting = false ∧ SameExcept (· ∈ [.pc, .reg x, .awaiting]) s t) ∧
    (s.input.lastKey = none → ∃ t, exec (.ldVxK x) s = .next t ∧ t.awaiting = true ∧ SameExcept (· = .awaiting) s t)

/-- R239, R242, R243: LD Vx, DT; LD DT, Vx; LD ST, Vx. -/
def Obligations.TimersAreReadAndSet : Prop :=
  ∀ (s : State) (x : Nibble),
    (∃ t, exec (.ldVxDt x) s = .next t ∧ t.reg x = s.dt ∧ Advanced s t ∧ SameExcept (· ∈ [.pc, .reg x]) s t) ∧
    (∃ t, exec (.ldDtVx x) s = .next t ∧ t.dt = s.reg x ∧ Advanced s t ∧ SameExcept (· ∈ [.pc, .dt]) s t) ∧
    (∃ t, exec (.ldStVx x) s = .next t ∧ t.st = s.reg x ∧ Advanced s t ∧ SameExcept (· ∈ [.pc, .st]) s t)
end

