-- ==== Sys2Proof/Laws/Encoding.lean ====
section
/-! SUPPORT. Fields and layouts: each field of a laid out word, and the fixed bits of each layout (spec R81, R82). -/

namespace Sys2Proof

/-! ### Fields of a laid out word -/

@[simp] theorem fieldOp_layoutNNN (op : Nibble) (nnn : Addr12) : fieldOp (layoutNNN op nnn) = op := by
  apply BitVec.eq_of_getLsbD_eq; intro k hk
  simp only [fieldOp, layoutNNN, BitVec.getLsbD_extractLsb', BitVec.getLsbD_append]; simp [hk]

@[simp] theorem fieldNNN_layoutNNN (op : Nibble) (nnn : Addr12) : fieldNNN (layoutNNN op nnn) = nnn := by
  apply BitVec.eq_of_getLsbD_eq; intro k hk
  simp only [fieldNNN, layoutNNN, BitVec.getLsbD_extractLsb', BitVec.getLsbD_append]; simp [hk]

@[simp] theorem fieldOp_layoutXKK (op x : Nibble) (kk : Byte) : fieldOp (layoutXKK op x kk) = op := by
  apply BitVec.eq_of_getLsbD_eq; intro k hk
  simp only [fieldOp, layoutXKK, BitVec.getLsbD_extractLsb', BitVec.getLsbD_append]; simp [hk]; grind

@[simp] theorem fieldX_layoutXKK (op x : Nibble) (kk : Byte) : fieldX (layoutXKK op x kk) = x := by
  apply BitVec.eq_of_getLsbD_eq; intro k hk
  simp only [fieldX, layoutXKK, BitVec.getLsbD_extractLsb', BitVec.getLsbD_append]; simp [hk]

@[simp] theorem fieldKK_layoutXKK (op x : Nibble) (kk : Byte) : fieldKK (layoutXKK op x kk) = kk := by
  apply BitVec.eq_of_getLsbD_eq; intro k hk
  simp only [fieldKK, layoutXKK, BitVec.getLsbD_extractLsb', BitVec.getLsbD_append]; simp [hk]

@[simp] theorem fieldOp_layoutXYN (op x y n : Nibble) : fieldOp (layoutXYN op x y n) = op := by
  apply BitVec.eq_of_getLsbD_eq; intro k hk
  simp only [fieldOp, layoutXYN, BitVec.getLsbD_extractLsb', BitVec.getLsbD_append]; simp [hk]; grind

@[simp] theorem fieldX_layoutXYN (op x y n : Nibble) : fieldX (layoutXYN op x y n) = x := by
  apply BitVec.eq_of_getLsbD_eq; intro k hk
  simp only [fieldX, layoutXYN, BitVec.getLsbD_extractLsb', BitVec.getLsbD_append]; simp [hk]; grind

@[simp] theorem fieldY_layoutXYN (op x y n : Nibble) : fieldY (layoutXYN op x y n) = y := by
  apply BitVec.eq_of_getLsbD_eq; intro k hk
  simp only [fieldY, layoutXYN, BitVec.getLsbD_extractLsb', BitVec.getLsbD_append]; simp [hk]

@[simp] theorem fieldN_layoutXYN (op x y n : Nibble) : fieldN (layoutXYN op x y n) = n := by
  apply BitVec.eq_of_getLsbD_eq; intro k hk
  simp only [fieldN, layoutXYN, BitVec.getLsbD_extractLsb', BitVec.getLsbD_append]; simp [hk]

/-! ### A word is its fields -/

theorem layoutNNN_fields (w : Word) : layoutNNN (fieldOp w) (fieldNNN w) = w := by
  apply BitVec.eq_of_getLsbD_eq; intro k hk
  simp only [layoutNNN, fieldOp, fieldNNN, BitVec.getLsbD_append, BitVec.getLsbD_extractLsb']
  by_cases h : k < 12
  · simp [h]
  · simp [h, show k - 12 < 4 by omega, show 12 + (k - 12) = k by omega]

theorem layoutXKK_fields (w : Word) : layoutXKK (fieldOp w) (fieldX w) (fieldKK w) = w := by
  apply BitVec.eq_of_getLsbD_eq; intro k hk
  simp only [layoutXKK, fieldOp, fieldX, fieldKK, BitVec.getLsbD_append, BitVec.getLsbD_extractLsb']
  by_cases h : k < 8
  · simp [h]
  · by_cases h' : k < 12
    · simp [h, show k - 8 < 4 by omega, show 8 + (k - 8) = k by omega]
    · simp [h, show ¬ k - 8 < 4 by omega, show k - 8 - 4 < 4 by omega, show 12 + (k - 8 - 4) = k by omega]

theorem layoutXYN_fields (w : Word) : layoutXYN (fieldOp w) (fieldX w) (fieldY w) (fieldN w) = w := by
  apply BitVec.eq_of_getLsbD_eq; intro k hk
  simp only [layoutXYN, fieldOp, fieldX, fieldY, fieldN, BitVec.getLsbD_append, BitVec.getLsbD_extractLsb']
  by_cases h : k < 4
  · simp [h]
  · by_cases h' : k < 8
    · simp [h, show k - 4 < 4 by omega, show 4 + (k - 4) = k by omega]
    · by_cases h'' : k < 12
      · simp [h, show ¬ k - 4 < 4 by omega, show k - 4 - 4 < 4 by omega, show 8 + (k - 4 - 4) = k by omega]
      · simp [h, show ¬ k - 4 < 4 by omega, show ¬ k - 4 - 4 < 4 by omega, show k - 4 - 4 - 4 < 4 by omega,
          show 12 + (k - 4 - 4 - 4) = k by omega]

/-! ### The fixed bits of each layout -/

@[simp] theorem fieldOp_and (w m : Word) : fieldOp (w &&& m) = fieldOp w &&& fieldOp m := BitVec.extractLsb'_and
@[simp] theorem fieldX_and (w m : Word) : fieldX (w &&& m) = fieldX w &&& fieldX m := BitVec.extractLsb'_and
@[simp] theorem fieldY_and (w m : Word) : fieldY (w &&& m) = fieldY w &&& fieldY m := BitVec.extractLsb'_and
@[simp] theorem fieldN_and (w m : Word) : fieldN (w &&& m) = fieldN w &&& fieldN m := BitVec.extractLsb'_and
@[simp] theorem fieldKK_and (w m : Word) : fieldKK (w &&& m) = fieldKK w &&& fieldKK m := BitVec.extractLsb'_and
@[simp] theorem fieldNNN_and (w m : Word) : fieldNNN (w &&& m) = fieldNNN w &&& fieldNNN m := BitVec.extractLsb'_and

theorem layoutNNN_and (op op' : Nibble) (a a' : Addr12) :
    layoutNNN op a &&& layoutNNN op' a' = layoutNNN (op &&& op') (a &&& a') := by
  rw [← layoutNNN_fields (layoutNNN op a &&& layoutNNN op' a')]; simp

theorem layoutXKK_and (op op' x x' : Nibble) (kk kk' : Byte) :
    layoutXKK op x kk &&& layoutXKK op' x' kk' = layoutXKK (op &&& op') (x &&& x') (kk &&& kk') := by
  rw [← layoutXKK_fields (layoutXKK op x kk &&& layoutXKK op' x' kk')]; simp

theorem layoutXYN_and (op op' x x' y y' n n' : Nibble) :
    layoutXYN op x y n &&& layoutXYN op' x' y' n' = layoutXYN (op &&& op') (x &&& x') (y &&& y') (n &&& n') := by
  rw [← layoutXYN_fields (layoutXYN op x y n &&& layoutXYN op' x' y' n')]; simp

theorem layoutNNN_row (op : Nibble) (nnn : Addr12) : layoutNNN op nnn &&& 0xF000#16 = layoutNNN op 0 := by
  have h := layoutNNN_and op 0xF nnn 0
  rwa [show layoutNNN 0xF 0 = 0xF000#16 by decide, show op &&& 0xF = op from BitVec.and_allOnes,
    show nnn &&& 0 = 0 from BitVec.and_zero] at h

theorem layoutXKK_row (op x : Nibble) (kk : Byte) : layoutXKK op x kk &&& 0xF000#16 = layoutXKK op 0 0 := by
  have h := layoutXKK_and op 0xF x 0 kk 0
  rwa [show layoutXKK 0xF 0 0 = 0xF000#16 by decide, show op &&& 0xF = op from BitVec.and_allOnes,
    show x &&& 0 = 0 from BitVec.and_zero, show kk &&& 0 = 0 from BitVec.and_zero] at h

theorem layoutXFN_row (op x : Nibble) (kk : Byte) : layoutXKK op x kk &&& 0xF0FF#16 = layoutXKK op 0 kk := by
  have h := layoutXKK_and op 0xF x 0 kk 0xFF
  rwa [show layoutXKK 0xF 0 0xFF = 0xF0FF#16 by decide, show op &&& 0xF = op from BitVec.and_allOnes,
    show x &&& 0 = 0 from BitVec.and_zero, show kk &&& 0xFF = kk from BitVec.and_allOnes] at h

theorem layoutXYN_row (op x y n : Nibble) : layoutXYN op x y n &&& 0xF000#16 = layoutXYN op 0 0 0 := by
  have h := layoutXYN_and op 0xF x 0 y 0 n 0
  rwa [show layoutXYN 0xF 0 0 0 = 0xF000#16 by decide, show op &&& 0xF = op from BitVec.and_allOnes,
    show x &&& 0 = 0 from BitVec.and_zero, show y &&& 0 = 0 from BitVec.and_zero,
    show n &&& 0 = 0 from BitVec.and_zero] at h

theorem layoutXY_row (op x y n : Nibble) : layoutXYN op x y n &&& 0xF00F#16 = layoutXYN op 0 0 n := by
  have h := layoutXYN_and op 0xF x 0 y 0 n 0xF
  rwa [show layoutXYN 0xF 0 0 0xF = 0xF00F#16 by decide, show op &&& 0xF = op from BitVec.and_allOnes,
    show x &&& 0 = 0 from BitVec.and_zero, show y &&& 0 = 0 from BitVec.and_zero,
    show n &&& 0xF = n from BitVec.and_allOnes] at h

/-! ### Bytes of a word -/

@[simp] theorem packWord_bytes (w : Word) : packWord (highByte w) (lowByte w) = w := by
  apply BitVec.eq_of_getLsbD_eq; intro k hk
  simp only [packWord, highByte, lowByte, BitVec.getLsbD_append, BitVec.getLsbD_extractLsb']
  by_cases h : k < 8
  · simp [h]
  · have h8 : k - 8 < 8 := by omega
    simp [h, h8, show 8 + (k - 8) = k by omega]

@[simp] theorem highByte_packWord (hi lo : Byte) : highByte (packWord hi lo) = hi := by
  apply BitVec.eq_of_getLsbD_eq; intro k hk
  simp only [packWord, highByte, BitVec.getLsbD_append, BitVec.getLsbD_extractLsb']; simp [hk]

@[simp] theorem lowByte_packWord (hi lo : Byte) : lowByte (packWord hi lo) = lo := by
  apply BitVec.eq_of_getLsbD_eq; intro k hk
  simp only [packWord, lowByte, BitVec.getLsbD_append, BitVec.getLsbD_extractLsb']; simp [hk]

/-- The value of a packed word: the first byte is the high one (R59). -/
theorem packWord_toNat (hi lo : Byte) : (packWord hi lo).toNat = 256 * hi.toNat + lo.toNat := by
  have hl := lo.isLt
  have e : (packWord hi lo).toNat = hi.toNat <<< 8 ||| lo.toNat := BitVec.toNat_append ..
  rw [e, ← Nat.shiftLeft_add_eq_or_of_lt (by omega), Nat.shiftLeft_eq]; omega

end Sys2Proof
end

