-- ==== Sys2Proof/Laws/State.lean ====
section
/-! SUPPORT. One lemma per field per update, so that no later proof unfolds a record update. -/

namespace Sys2Proof.Machine

/-! ### setReg -/

@[simp] theorem setReg_v (s : State) (x : Nibble) (b : Byte) : (s.setReg x b).v = s.v.set x.toNat b x.isLt := rfl
@[simp] theorem setReg_i (s : State) (x : Nibble) (b : Byte) : (s.setReg x b).i = s.i := rfl
@[simp] theorem setReg_pc (s : State) (x : Nibble) (b : Byte) : (s.setReg x b).pc = s.pc := rfl
@[simp] theorem setReg_dt (s : State) (x : Nibble) (b : Byte) : (s.setReg x b).dt = s.dt := rfl
@[simp] theorem setReg_st (s : State) (x : Nibble) (b : Byte) : (s.setReg x b).st = s.st := rfl
@[simp] theorem setReg_stack (s : State) (x : Nibble) (b : Byte) : (s.setReg x b).stack = s.stack := rfl
@[simp] theorem setReg_mem (s : State) (x : Nibble) (b : Byte) : (s.setReg x b).mem = s.mem := rfl
@[simp] theorem setReg_fb (s : State) (x : Nibble) (b : Byte) : (s.setReg x b).fb = s.fb := rfl
@[simp] theorem setReg_run (s : State) (x : Nibble) (b : Byte) : (s.setReg x b).run = s.run := rfl
@[simp] theorem setReg_reason (s : State) (x : Nibble) (b : Byte) : (s.setReg x b).reason = s.reason := rfl
@[simp] theorem setReg_awaiting (s : State) (x : Nibble) (b : Byte) : (s.setReg x b).awaiting = s.awaiting := rfl
@[simp] theorem setReg_progEnd (s : State) (x : Nibble) (b : Byte) : (s.setReg x b).progEnd = s.progEnd := rfl
@[simp] theorem setReg_cfg (s : State) (x : Nibble) (b : Byte) : (s.setReg x b).cfg = s.cfg := rfl
@[simp] theorem setReg_input (s : State) (x : Nibble) (b : Byte) : (s.setReg x b).input = s.input := rfl
@[simp] theorem setReg_pending (s : State) (x : Nibble) (b : Byte) : (s.setReg x b).pending = s.pending := rfl
@[simp] theorem setReg_draws (s : State) (x : Nibble) (b : Byte) : (s.setReg x b).draws = s.draws := rfl

/-! ### advance -/

@[simp] theorem advance_v (s : State) : (advance s).v = s.v := rfl
@[simp] theorem advance_i (s : State) : (advance s).i = s.i := rfl
@[simp] theorem advance_pc (s : State) : (advance s).pc = s.pc + 2 := rfl
@[simp] theorem advance_dt (s : State) : (advance s).dt = s.dt := rfl
@[simp] theorem advance_st (s : State) : (advance s).st = s.st := rfl
@[simp] theorem advance_stack (s : State) : (advance s).stack = s.stack := rfl
@[simp] theorem advance_mem (s : State) : (advance s).mem = s.mem := rfl
@[simp] theorem advance_fb (s : State) : (advance s).fb = s.fb := rfl
@[simp] theorem advance_run (s : State) : (advance s).run = s.run := rfl
@[simp] theorem advance_reason (s : State) : (advance s).reason = s.reason := rfl
@[simp] theorem advance_awaiting (s : State) : (advance s).awaiting = s.awaiting := rfl
@[simp] theorem advance_progEnd (s : State) : (advance s).progEnd = s.progEnd := rfl
@[simp] theorem advance_cfg (s : State) : (advance s).cfg = s.cfg := rfl
@[simp] theorem advance_input (s : State) : (advance s).input = s.input := rfl
@[simp] theorem advance_pending (s : State) : (advance s).pending = s.pending := rfl
@[simp] theorem advance_draws (s : State) : (advance s).draws = s.draws := rfl

/-! ### skipIf -/

@[simp] theorem skipIf_v (c : Bool) (s : State) : (skipIf c s).v = s.v := rfl
@[simp] theorem skipIf_i (c : Bool) (s : State) : (skipIf c s).i = s.i := rfl
@[simp] theorem skipIf_pc (c : Bool) (s : State) : (skipIf c s).pc = s.pc + (if c then 4 else 2) := rfl
@[simp] theorem skipIf_dt (c : Bool) (s : State) : (skipIf c s).dt = s.dt := rfl
@[simp] theorem skipIf_st (c : Bool) (s : State) : (skipIf c s).st = s.st := rfl
@[simp] theorem skipIf_stack (c : Bool) (s : State) : (skipIf c s).stack = s.stack := rfl
@[simp] theorem skipIf_mem (c : Bool) (s : State) : (skipIf c s).mem = s.mem := rfl
@[simp] theorem skipIf_fb (c : Bool) (s : State) : (skipIf c s).fb = s.fb := rfl
@[simp] theorem skipIf_run (c : Bool) (s : State) : (skipIf c s).run = s.run := rfl
@[simp] theorem skipIf_reason (c : Bool) (s : State) : (skipIf c s).reason = s.reason := rfl
@[simp] theorem skipIf_awaiting (c : Bool) (s : State) : (skipIf c s).awaiting = s.awaiting := rfl
@[simp] theorem skipIf_progEnd (c : Bool) (s : State) : (skipIf c s).progEnd = s.progEnd := rfl
@[simp] theorem skipIf_cfg (c : Bool) (s : State) : (skipIf c s).cfg = s.cfg := rfl
@[simp] theorem skipIf_input (c : Bool) (s : State) : (skipIf c s).input = s.input := rfl
@[simp] theorem skipIf_pending (c : Bool) (s : State) : (skipIf c s).pending = s.pending := rfl
@[simp] theorem skipIf_draws (c : Bool) (s : State) : (skipIf c s).draws = s.draws := rfl

/-! ### jumpTo -/

@[simp] theorem jumpTo_v (t : Word) (s : State) : (jumpTo t s).v = s.v := rfl
@[simp] theorem jumpTo_i (t : Word) (s : State) : (jumpTo t s).i = s.i := rfl
@[simp] theorem jumpTo_pc (t : Word) (s : State) : (jumpTo t s).pc = t := rfl
@[simp] theorem jumpTo_dt (t : Word) (s : State) : (jumpTo t s).dt = s.dt := rfl
@[simp] theorem jumpTo_st (t : Word) (s : State) : (jumpTo t s).st = s.st := rfl
@[simp] theorem jumpTo_stack (t : Word) (s : State) : (jumpTo t s).stack = s.stack := rfl
@[simp] theorem jumpTo_mem (t : Word) (s : State) : (jumpTo t s).mem = s.mem := rfl
@[simp] theorem jumpTo_fb (t : Word) (s : State) : (jumpTo t s).fb = s.fb := rfl
@[simp] theorem jumpTo_run (t : Word) (s : State) : (jumpTo t s).run = s.run := rfl
@[simp] theorem jumpTo_reason (t : Word) (s : State) : (jumpTo t s).reason = s.reason := rfl
@[simp] theorem jumpTo_awaiting (t : Word) (s : State) : (jumpTo t s).awaiting = s.awaiting := rfl
@[simp] theorem jumpTo_progEnd (t : Word) (s : State) : (jumpTo t s).progEnd = s.progEnd := rfl
@[simp] theorem jumpTo_cfg (t : Word) (s : State) : (jumpTo t s).cfg = s.cfg := rfl
@[simp] theorem jumpTo_input (t : Word) (s : State) : (jumpTo t s).input = s.input := rfl
@[simp] theorem jumpTo_pending (t : Word) (s : State) : (jumpTo t s).pending = s.pending := rfl
@[simp] theorem jumpTo_draws (t : Word) (s : State) : (jumpTo t s).draws = s.draws := rfl

/-! ### hold -/

@[simp] theorem hold_v (s : State) : (hold s).v = s.v := rfl
@[simp] theorem hold_i (s : State) : (hold s).i = s.i := rfl
@[simp] theorem hold_pc (s : State) : (hold s).pc = s.pc := rfl
@[simp] theorem hold_dt (s : State) : (hold s).dt = s.dt := rfl
@[simp] theorem hold_st (s : State) : (hold s).st = s.st := rfl
@[simp] theorem hold_stack (s : State) : (hold s).stack = s.stack := rfl
@[simp] theorem hold_mem (s : State) : (hold s).mem = s.mem := rfl
@[simp] theorem hold_fb (s : State) : (hold s).fb = s.fb := rfl
@[simp] theorem hold_run (s : State) : (hold s).run = s.run := rfl
@[simp] theorem hold_reason (s : State) : (hold s).reason = s.reason := rfl
@[simp] theorem hold_awaiting (s : State) : (hold s).awaiting = s.awaiting := rfl
@[simp] theorem hold_progEnd (s : State) : (hold s).progEnd = s.progEnd := rfl
@[simp] theorem hold_cfg (s : State) : (hold s).cfg = s.cfg := rfl
@[simp] theorem hold_input (s : State) : (hold s).input = s.input := rfl
@[simp] theorem hold_pending (s : State) : (hold s).pending = s.pending := rfl
@[simp] theorem hold_draws (s : State) : (hold s).draws = s.draws := rfl

/-! ### setAwaiting -/

@[simp] theorem setAwaiting_v (b : Bool) (s : State) : (setAwaiting b s).v = s.v := rfl
@[simp] theorem setAwaiting_i (b : Bool) (s : State) : (setAwaiting b s).i = s.i := rfl
@[simp] theorem setAwaiting_pc (b : Bool) (s : State) : (setAwaiting b s).pc = s.pc := rfl
@[simp] theorem setAwaiting_dt (b : Bool) (s : State) : (setAwaiting b s).dt = s.dt := rfl
@[simp] theorem setAwaiting_st (b : Bool) (s : State) : (setAwaiting b s).st = s.st := rfl
@[simp] theorem setAwaiting_stack (b : Bool) (s : State) : (setAwaiting b s).stack = s.stack := rfl
@[simp] theorem setAwaiting_mem (b : Bool) (s : State) : (setAwaiting b s).mem = s.mem := rfl
@[simp] theorem setAwaiting_fb (b : Bool) (s : State) : (setAwaiting b s).fb = s.fb := rfl
@[simp] theorem setAwaiting_run (b : Bool) (s : State) : (setAwaiting b s).run = s.run := rfl
@[simp] theorem setAwaiting_reason (b : Bool) (s : State) : (setAwaiting b s).reason = s.reason := rfl
@[simp] theorem setAwaiting_awaiting (b : Bool) (s : State) : (setAwaiting b s).awaiting = b := rfl
@[simp] theorem setAwaiting_progEnd (b : Bool) (s : State) : (setAwaiting b s).progEnd = s.progEnd := rfl
@[simp] theorem setAwaiting_cfg (b : Bool) (s : State) : (setAwaiting b s).cfg = s.cfg := rfl
@[simp] theorem setAwaiting_input (b : Bool) (s : State) : (setAwaiting b s).input = s.input := rfl
@[simp] theorem setAwaiting_pending (b : Bool) (s : State) : (setAwaiting b s).pending = s.pending := rfl
@[simp] theorem setAwaiting_draws (b : Bool) (s : State) : (setAwaiting b s).draws = s.draws := rfl

/-! ### takeHalt -/

@[simp] theorem takeHalt_v (r : HaltReason) (s : State) : (takeHalt r s).v = s.v := rfl
@[simp] theorem takeHalt_i (r : HaltReason) (s : State) : (takeHalt r s).i = s.i := rfl
@[simp] theorem takeHalt_pc (r : HaltReason) (s : State) : (takeHalt r s).pc = s.pc := rfl
@[simp] theorem takeHalt_dt (r : HaltReason) (s : State) : (takeHalt r s).dt = s.dt := rfl
@[simp] theorem takeHalt_st (r : HaltReason) (s : State) : (takeHalt r s).st = s.st := rfl
@[simp] theorem takeHalt_stack (r : HaltReason) (s : State) : (takeHalt r s).stack = s.stack := rfl
@[simp] theorem takeHalt_mem (r : HaltReason) (s : State) : (takeHalt r s).mem = s.mem := rfl
@[simp] theorem takeHalt_fb (r : HaltReason) (s : State) : (takeHalt r s).fb = s.fb := rfl
@[simp] theorem takeHalt_run (r : HaltReason) (s : State) : (takeHalt r s).run = .halted := rfl
@[simp] theorem takeHalt_reason (r : HaltReason) (s : State) : (takeHalt r s).reason = some r := rfl
@[simp] theorem takeHalt_awaiting (r : HaltReason) (s : State) : (takeHalt r s).awaiting = false := rfl
@[simp] theorem takeHalt_progEnd (r : HaltReason) (s : State) : (takeHalt r s).progEnd = s.progEnd := rfl
@[simp] theorem takeHalt_cfg (r : HaltReason) (s : State) : (takeHalt r s).cfg = s.cfg := rfl
@[simp] theorem takeHalt_input (r : HaltReason) (s : State) : (takeHalt r s).input = s.input := rfl
@[simp] theorem takeHalt_pending (r : HaltReason) (s : State) : (takeHalt r s).pending = s.pending := rfl
@[simp] theorem takeHalt_draws (r : HaltReason) (s : State) : (takeHalt r s).draws = s.draws := rfl

/-! ### sample -/

@[simp] theorem sample_v (inp : StepInput) (s : State) : (sample inp s).v = s.v := rfl
@[simp] theorem sample_i (inp : StepInput) (s : State) : (sample inp s).i = s.i := rfl
@[simp] theorem sample_pc (inp : StepInput) (s : State) : (sample inp s).pc = s.pc := rfl
@[simp] theorem sample_dt (inp : StepInput) (s : State) : (sample inp s).dt = s.dt := rfl
@[simp] theorem sample_st (inp : StepInput) (s : State) : (sample inp s).st = s.st := rfl
@[simp] theorem sample_stack (inp : StepInput) (s : State) : (sample inp s).stack = s.stack := rfl
@[simp] theorem sample_mem (inp : StepInput) (s : State) : (sample inp s).mem = s.mem := rfl
@[simp] theorem sample_fb (inp : StepInput) (s : State) : (sample inp s).fb = s.fb := rfl
@[simp] theorem sample_run (inp : StepInput) (s : State) : (sample inp s).run = s.run := rfl
@[simp] theorem sample_reason (inp : StepInput) (s : State) : (sample inp s).reason = s.reason := rfl
@[simp] theorem sample_awaiting (inp : StepInput) (s : State) : (sample inp s).awaiting = s.awaiting := rfl
@[simp] theorem sample_progEnd (inp : StepInput) (s : State) : (sample inp s).progEnd = s.progEnd := rfl
@[simp] theorem sample_cfg (inp : StepInput) (s : State) : (sample inp s).cfg = s.cfg := rfl
@[simp] theorem sample_input (inp : StepInput) (s : State) : (sample inp s).input = inp := rfl
@[simp] theorem sample_pending (inp : StepInput) (s : State) : (sample inp s).pending = s.pending := rfl
@[simp] theorem sample_draws (inp : StepInput) (s : State) : (sample inp s).draws = s.draws := rfl

/-! ### tick -/

@[simp] theorem tick_v (s : State) : (tick s).v = s.v := rfl
@[simp] theorem tick_i (s : State) : (tick s).i = s.i := rfl
@[simp] theorem tick_pc (s : State) : (tick s).pc = s.pc := rfl
@[simp] theorem tick_dt (s : State) : (tick s).dt = countDown s.dt := rfl
@[simp] theorem tick_st (s : State) : (tick s).st = countDown s.st := rfl
@[simp] theorem tick_stack (s : State) : (tick s).stack = s.stack := rfl
@[simp] theorem tick_mem (s : State) : (tick s).mem = s.mem := rfl
@[simp] theorem tick_fb (s : State) : (tick s).fb = s.fb := rfl
@[simp] theorem tick_run (s : State) : (tick s).run = s.run := rfl
@[simp] theorem tick_reason (s : State) : (tick s).reason = s.reason := rfl
@[simp] theorem tick_awaiting (s : State) : (tick s).awaiting = s.awaiting := rfl
@[simp] theorem tick_progEnd (s : State) : (tick s).progEnd = s.progEnd := rfl
@[simp] theorem tick_cfg (s : State) : (tick s).cfg = s.cfg := rfl
@[simp] theorem tick_input (s : State) : (tick s).input = s.input := rfl
@[simp] theorem tick_pending (s : State) : (tick s).pending = s.pending := rfl
@[simp] theorem tick_draws (s : State) : (tick s).draws = s.draws := rfl

/-! ### writeFlagged -/

@[simp] theorem writeFlagged_i (x : Nibble) (r f : Byte) (o : AluVfOrder) (s : State) : (writeFlagged x r f o s).i = s.i := by cases o <;> rfl
@[simp] theorem writeFlagged_pc (x : Nibble) (r f : Byte) (o : AluVfOrder) (s : State) : (writeFlagged x r f o s).pc = s.pc := by cases o <;> rfl
@[simp] theorem writeFlagged_dt (x : Nibble) (r f : Byte) (o : AluVfOrder) (s : State) : (writeFlagged x r f o s).dt = s.dt := by cases o <;> rfl
@[simp] theorem writeFlagged_st (x : Nibble) (r f : Byte) (o : AluVfOrder) (s : State) : (writeFlagged x r f o s).st = s.st := by cases o <;> rfl
@[simp] theorem writeFlagged_stack (x : Nibble) (r f : Byte) (o : AluVfOrder) (s : State) : (writeFlagged x r f o s).stack = s.stack := by cases o <;> rfl
@[simp] theorem writeFlagged_mem (x : Nibble) (r f : Byte) (o : AluVfOrder) (s : State) : (writeFlagged x r f o s).mem = s.mem := by cases o <;> rfl
@[simp] theorem writeFlagged_fb (x : Nibble) (r f : Byte) (o : AluVfOrder) (s : State) : (writeFlagged x r f o s).fb = s.fb := by cases o <;> rfl
@[simp] theorem writeFlagged_run (x : Nibble) (r f : Byte) (o : AluVfOrder) (s : State) : (writeFlagged x r f o s).run = s.run := by cases o <;> rfl
@[simp] theorem writeFlagged_reason (x : Nibble) (r f : Byte) (o : AluVfOrder) (s : State) : (writeFlagged x r f o s).reason = s.reason := by cases o <;> rfl
@[simp] theorem writeFlagged_awaiting (x : Nibble) (r f : Byte) (o : AluVfOrder) (s : State) : (writeFlagged x r f o s).awaiting = s.awaiting := by cases o <;> rfl
@[simp] theorem writeFlagged_progEnd (x : Nibble) (r f : Byte) (o : AluVfOrder) (s : State) : (writeFlagged x r f o s).progEnd = s.progEnd := by cases o <;> rfl
@[simp] theorem writeFlagged_cfg (x : Nibble) (r f : Byte) (o : AluVfOrder) (s : State) : (writeFlagged x r f o s).cfg = s.cfg := by cases o <;> rfl
@[simp] theorem writeFlagged_input (x : Nibble) (r f : Byte) (o : AluVfOrder) (s : State) : (writeFlagged x r f o s).input = s.input := by cases o <;> rfl
@[simp] theorem writeFlagged_pending (x : Nibble) (r f : Byte) (o : AluVfOrder) (s : State) : (writeFlagged x r f o s).pending = s.pending := by cases o <;> rfl
@[simp] theorem writeFlagged_draws (x : Nibble) (r f : Byte) (o : AluVfOrder) (s : State) : (writeFlagged x r f o s).draws = s.draws := by cases o <;> rfl

/-! ### logicFlag -/

@[simp] theorem logicFlag_i (s : State) : (logicFlag s).i = s.i := by unfold logicFlag; split <;> rfl
@[simp] theorem logicFlag_pc (s : State) : (logicFlag s).pc = s.pc := by unfold logicFlag; split <;> rfl
@[simp] theorem logicFlag_dt (s : State) : (logicFlag s).dt = s.dt := by unfold logicFlag; split <;> rfl
@[simp] theorem logicFlag_st (s : State) : (logicFlag s).st = s.st := by unfold logicFlag; split <;> rfl
@[simp] theorem logicFlag_stack (s : State) : (logicFlag s).stack = s.stack := by unfold logicFlag; split <;> rfl
@[simp] theorem logicFlag_mem (s : State) : (logicFlag s).mem = s.mem := by unfold logicFlag; split <;> rfl
@[simp] theorem logicFlag_fb (s : State) : (logicFlag s).fb = s.fb := by unfold logicFlag; split <;> rfl
@[simp] theorem logicFlag_run (s : State) : (logicFlag s).run = s.run := by unfold logicFlag; split <;> rfl
@[simp] theorem logicFlag_reason (s : State) : (logicFlag s).reason = s.reason := by unfold logicFlag; split <;> rfl
@[simp] theorem logicFlag_awaiting (s : State) : (logicFlag s).awaiting = s.awaiting := by unfold logicFlag; split <;> rfl
@[simp] theorem logicFlag_progEnd (s : State) : (logicFlag s).progEnd = s.progEnd := by unfold logicFlag; split <;> rfl
@[simp] theorem logicFlag_cfg (s : State) : (logicFlag s).cfg = s.cfg := by unfold logicFlag; split <;> rfl
@[simp] theorem logicFlag_input (s : State) : (logicFlag s).input = s.input := by unfold logicFlag; split <;> rfl
@[simp] theorem logicFlag_pending (s : State) : (logicFlag s).pending = s.pending := by unfold logicFlag; split <;> rfl
@[simp] theorem logicFlag_draws (s : State) : (logicFlag s).draws = s.draws := by unfold logicFlag; split <;> rfl

/-! ### bumpIndex -/

@[simp] theorem bumpIndex_v (x : Nibble) (s : State) : (bumpIndex x s).v = s.v := by unfold bumpIndex; split <;> rfl
@[simp] theorem bumpIndex_pc (x : Nibble) (s : State) : (bumpIndex x s).pc = s.pc := by unfold bumpIndex; split <;> rfl
@[simp] theorem bumpIndex_dt (x : Nibble) (s : State) : (bumpIndex x s).dt = s.dt := by unfold bumpIndex; split <;> rfl
@[simp] theorem bumpIndex_st (x : Nibble) (s : State) : (bumpIndex x s).st = s.st := by unfold bumpIndex; split <;> rfl
@[simp] theorem bumpIndex_stack (x : Nibble) (s : State) : (bumpIndex x s).stack = s.stack := by unfold bumpIndex; split <;> rfl
@[simp] theorem bumpIndex_mem (x : Nibble) (s : State) : (bumpIndex x s).mem = s.mem := by unfold bumpIndex; split <;> rfl
@[simp] theorem bumpIndex_fb (x : Nibble) (s : State) : (bumpIndex x s).fb = s.fb := by unfold bumpIndex; split <;> rfl
@[simp] theorem bumpIndex_run (x : Nibble) (s : State) : (bumpIndex x s).run = s.run := by unfold bumpIndex; split <;> rfl
@[simp] theorem bumpIndex_reason (x : Nibble) (s : State) : (bumpIndex x s).reason = s.reason := by unfold bumpIndex; split <;> rfl
@[simp] theorem bumpIndex_awaiting (x : Nibble) (s : State) : (bumpIndex x s).awaiting = s.awaiting := by unfold bumpIndex; split <;> rfl
@[simp] theorem bumpIndex_progEnd (x : Nibble) (s : State) : (bumpIndex x s).progEnd = s.progEnd := by unfold bumpIndex; split <;> rfl
@[simp] theorem bumpIndex_cfg (x : Nibble) (s : State) : (bumpIndex x s).cfg = s.cfg := by unfold bumpIndex; split <;> rfl
@[simp] theorem bumpIndex_input (x : Nibble) (s : State) : (bumpIndex x s).input = s.input := by unfold bumpIndex; split <;> rfl
@[simp] theorem bumpIndex_pending (x : Nibble) (s : State) : (bumpIndex x s).pending = s.pending := by unfold bumpIndex; split <;> rfl
@[simp] theorem bumpIndex_draws (x : Nibble) (s : State) : (bumpIndex x s).draws = s.draws := by unfold bumpIndex; split <;> rfl

/-! ### settleAwaiting -/

@[simp] theorem settleAwaiting_v (j : Instr) (s : State) : (settleAwaiting j s).v = s.v := by unfold settleAwaiting; split <;> rfl
@[simp] theorem settleAwaiting_i (j : Instr) (s : State) : (settleAwaiting j s).i = s.i := by unfold settleAwaiting; split <;> rfl
@[simp] theorem settleAwaiting_pc (j : Instr) (s : State) : (settleAwaiting j s).pc = s.pc := by unfold settleAwaiting; split <;> rfl
@[simp] theorem settleAwaiting_dt (j : Instr) (s : State) : (settleAwaiting j s).dt = s.dt := by unfold settleAwaiting; split <;> rfl
@[simp] theorem settleAwaiting_st (j : Instr) (s : State) : (settleAwaiting j s).st = s.st := by unfold settleAwaiting; split <;> rfl
@[simp] theorem settleAwaiting_stack (j : Instr) (s : State) : (settleAwaiting j s).stack = s.stack := by unfold settleAwaiting; split <;> rfl
@[simp] theorem settleAwaiting_mem (j : Instr) (s : State) : (settleAwaiting j s).mem = s.mem := by unfold settleAwaiting; split <;> rfl
@[simp] theorem settleAwaiting_fb (j : Instr) (s : State) : (settleAwaiting j s).fb = s.fb := by unfold settleAwaiting; split <;> rfl
@[simp] theorem settleAwaiting_run (j : Instr) (s : State) : (settleAwaiting j s).run = s.run := by unfold settleAwaiting; split <;> rfl
@[simp] theorem settleAwaiting_reason (j : Instr) (s : State) : (settleAwaiting j s).reason = s.reason := by unfold settleAwaiting; split <;> rfl
@[simp] theorem settleAwaiting_progEnd (j : Instr) (s : State) : (settleAwaiting j s).progEnd = s.progEnd := by unfold settleAwaiting; split <;> rfl
@[simp] theorem settleAwaiting_cfg (j : Instr) (s : State) : (settleAwaiting j s).cfg = s.cfg := by unfold settleAwaiting; split <;> rfl
@[simp] theorem settleAwaiting_input (j : Instr) (s : State) : (settleAwaiting j s).input = s.input := by unfold settleAwaiting; split <;> rfl
@[simp] theorem settleAwaiting_pending (j : Instr) (s : State) : (settleAwaiting j s).pending = s.pending := by unfold settleAwaiting; split <;> rfl
@[simp] theorem settleAwaiting_draws (j : Instr) (s : State) : (settleAwaiting j s).draws = s.draws := by unfold settleAwaiting; split <;> rfl

/-! ### drawAndFlag -/

@[simp] theorem drawAndFlag_i (x y : Nibble) (rows : List Byte) (s : State) : (drawAndFlag x y rows s).i = s.i := rfl
@[simp] theorem drawAndFlag_pc (x y : Nibble) (rows : List Byte) (s : State) : (drawAndFlag x y rows s).pc = s.pc := rfl
@[simp] theorem drawAndFlag_dt (x y : Nibble) (rows : List Byte) (s : State) : (drawAndFlag x y rows s).dt = s.dt := rfl
@[simp] theorem drawAndFlag_st (x y : Nibble) (rows : List Byte) (s : State) : (drawAndFlag x y rows s).st = s.st := rfl
@[simp] theorem drawAndFlag_stack (x y : Nibble) (rows : List Byte) (s : State) : (drawAndFlag x y rows s).stack = s.stack := rfl
@[simp] theorem drawAndFlag_mem (x y : Nibble) (rows : List Byte) (s : State) : (drawAndFlag x y rows s).mem = s.mem := rfl
@[simp] theorem drawAndFlag_run (x y : Nibble) (rows : List Byte) (s : State) : (drawAndFlag x y rows s).run = s.run := rfl
@[simp] theorem drawAndFlag_reason (x y : Nibble) (rows : List Byte) (s : State) : (drawAndFlag x y rows s).reason = s.reason := rfl
@[simp] theorem drawAndFlag_awaiting (x y : Nibble) (rows : List Byte) (s : State) : (drawAndFlag x y rows s).awaiting = s.awaiting := rfl
@[simp] theorem drawAndFlag_progEnd (x y : Nibble) (rows : List Byte) (s : State) : (drawAndFlag x y rows s).progEnd = s.progEnd := rfl
@[simp] theorem drawAndFlag_cfg (x y : Nibble) (rows : List Byte) (s : State) : (drawAndFlag x y rows s).cfg = s.cfg := rfl
@[simp] theorem drawAndFlag_input (x y : Nibble) (rows : List Byte) (s : State) : (drawAndFlag x y rows s).input = s.input := rfl
@[simp] theorem drawAndFlag_pending (x y : Nibble) (rows : List Byte) (s : State) : (drawAndFlag x y rows s).pending = s.pending := rfl
@[simp] theorem drawAndFlag_draws (x y : Nibble) (rows : List Byte) (s : State) : (drawAndFlag x y rows s).draws = s.draws := rfl

@[simp] theorem drawAndFlag_fb (x y : Nibble) (rows : List Byte) (s : State) :
    (drawAndFlag x y rows s).fb = (drawSprite (s.reg x) (s.reg y) rows s.fb).1 := rfl

/-! ### setRegs -/

@[simp] theorem setRegs_i (bs : List Byte) : ∀ (s : State) (k : Nat), (s.setRegs k bs).i = s.i := by
  induction bs with
  | nil => intro s k; rfl
  | cons b bs ih => intro s k; rw [State.setRegs, ih]
@[simp] theorem setRegs_pc (bs : List Byte) : ∀ (s : State) (k : Nat), (s.setRegs k bs).pc = s.pc := by
  induction bs with
  | nil => intro s k; rfl
  | cons b bs ih => intro s k; rw [State.setRegs, ih]
@[simp] theorem setRegs_dt (bs : List Byte) : ∀ (s : State) (k : Nat), (s.setRegs k bs).dt = s.dt := by
  induction bs with
  | nil => intro s k; rfl
  | cons b bs ih => intro s k; rw [State.setRegs, ih]
@[simp] theorem setRegs_st (bs : List Byte) : ∀ (s : State) (k : Nat), (s.setRegs k bs).st = s.st := by
  induction bs with
  | nil => intro s k; rfl
  | cons b bs ih => intro s k; rw [State.setRegs, ih]
@[simp] theorem setRegs_stack (bs : List Byte) : ∀ (s : State) (k : Nat), (s.setRegs k bs).stack = s.stack := by
  induction bs with
  | nil => intro s k; rfl
  | cons b bs ih => intro s k; rw [State.setRegs, ih]
@[simp] theorem setRegs_mem (bs : List Byte) : ∀ (s : State) (k : Nat), (s.setRegs k bs).mem = s.mem := by
  induction bs with
  | nil => intro s k; rfl
  | cons b bs ih => intro s k; rw [State.setRegs, ih]
@[simp] theorem setRegs_fb (bs : List Byte) : ∀ (s : State) (k : Nat), (s.setRegs k bs).fb = s.fb := by
  induction bs with
  | nil => intro s k; rfl
  | cons b bs ih => intro s k; rw [State.setRegs, ih]
@[simp] theorem setRegs_run (bs : List Byte) : ∀ (s : State) (k : Nat), (s.setRegs k bs).run = s.run := by
  induction bs with
  | nil => intro s k; rfl
  | cons b bs ih => intro s k; rw [State.setRegs, ih]
@[simp] theorem setRegs_reason (bs : List Byte) : ∀ (s : State) (k : Nat), (s.setRegs k bs).reason = s.reason := by
  induction bs with
  | nil => intro s k; rfl
  | cons b bs ih => intro s k; rw [State.setRegs, ih]
@[simp] theorem setRegs_awaiting (bs : List Byte) : ∀ (s : State) (k : Nat), (s.setRegs k bs).awaiting = s.awaiting := by
  induction bs with
  | nil => intro s k; rfl
  | cons b bs ih => intro s k; rw [State.setRegs, ih]
@[simp] theorem setRegs_progEnd (bs : List Byte) : ∀ (s : State) (k : Nat), (s.setRegs k bs).progEnd = s.progEnd := by
  induction bs with
  | nil => intro s k; rfl
  | cons b bs ih => intro s k; rw [State.setRegs, ih]
@[simp] theorem setRegs_cfg (bs : List Byte) : ∀ (s : State) (k : Nat), (s.setRegs k bs).cfg = s.cfg := by
  induction bs with
  | nil => intro s k; rfl
  | cons b bs ih => intro s k; rw [State.setRegs, ih]
@[simp] theorem setRegs_input (bs : List Byte) : ∀ (s : State) (k : Nat), (s.setRegs k bs).input = s.input := by
  induction bs with
  | nil => intro s k; rfl
  | cons b bs ih => intro s k; rw [State.setRegs, ih]
@[simp] theorem setRegs_pending (bs : List Byte) : ∀ (s : State) (k : Nat), (s.setRegs k bs).pending = s.pending := by
  induction bs with
  | nil => intro s k; rfl
  | cons b bs ih => intro s k; rw [State.setRegs, ih]
@[simp] theorem setRegs_draws (bs : List Byte) : ∀ (s : State) (k : Nat), (s.setRegs k bs).draws = s.draws := by
  induction bs with
  | nil => intro s k; rfl
  | cons b bs ih => intro s k; rw [State.setRegs, ih]

/-! ### Reading registers and bytes through an update -/

theorem reg_congr {s t : State} (h : t.v = s.v) (x : Nibble) : t.reg x = s.reg x := by
  simp [State.reg, h]

theorem byteAt_congr {s t : State} (hm : t.mem = s.mem) (hc : t.cfg = s.cfg) (a : Nat) : t.byteAt a = s.byteAt a := by
  simp [State.byteAt, hm, hc]

theorem nibble_toNat_inj {x y : Nibble} : x.toNat = y.toNat ↔ x = y := BitVec.toNat_inj

@[simp] theorem setReg_reg (s : State) (x y : Nibble) (b : Byte) :
    (s.setReg x b).reg y = if y = x then b else s.reg y := by
  simp only [State.reg, State.setReg, Vector.getElem_set, eq_comm (a := x.toNat), nibble_toNat_inj]

@[simp] theorem setReg_byteAt (s : State) (x : Nibble) (b : Byte) (a : Nat) : (s.setReg x b).byteAt a = s.byteAt a := rfl

@[simp] theorem advance_reg (s : State) (x : Nibble) : (advance s).reg x = s.reg x := rfl
@[simp] theorem advance_byteAt (s : State) (a : Nat) : (advance s).byteAt a = s.byteAt a := rfl
@[simp] theorem skipIf_reg (c : Bool) (s : State) (x : Nibble) : (skipIf c s).reg x = s.reg x := rfl
@[simp] theorem skipIf_byteAt (c : Bool) (s : State) (a : Nat) : (skipIf c s).byteAt a = s.byteAt a := rfl
@[simp] theorem jumpTo_reg (t : Word) (s : State) (x : Nibble) : (jumpTo t s).reg x = s.reg x := rfl
@[simp] theorem jumpTo_byteAt (t : Word) (s : State) (a : Nat) : (jumpTo t s).byteAt a = s.byteAt a := rfl
@[simp] theorem hold_reg (s : State) (x : Nibble) : (hold s).reg x = s.reg x := rfl
@[simp] theorem hold_byteAt (s : State) (a : Nat) : (hold s).byteAt a = s.byteAt a := rfl
@[simp] theorem setAwaiting_reg (b : Bool) (s : State) (x : Nibble) : (setAwaiting b s).reg x = s.reg x := rfl
@[simp] theorem setAwaiting_byteAt (b : Bool) (s : State) (a : Nat) : (setAwaiting b s).byteAt a = s.byteAt a := rfl
@[simp] theorem takeHalt_reg (r : HaltReason) (s : State) (x : Nibble) : (takeHalt r s).reg x = s.reg x := rfl
@[simp] theorem takeHalt_byteAt (r : HaltReason) (s : State) (a : Nat) : (takeHalt r s).byteAt a = s.byteAt a := rfl
@[simp] theorem sample_reg (inp : StepInput) (s : State) (x : Nibble) : (sample inp s).reg x = s.reg x := rfl
@[simp] theorem sample_byteAt (inp : StepInput) (s : State) (a : Nat) : (sample inp s).byteAt a = s.byteAt a := rfl
@[simp] theorem tick_reg (s : State) (x : Nibble) : (tick s).reg x = s.reg x := rfl
@[simp] theorem tick_byteAt (s : State) (a : Nat) : (tick s).byteAt a = s.byteAt a := rfl
@[simp] theorem bumpIndex_reg (x : Nibble) (s : State) (y : Nibble) : (bumpIndex x s).reg y = s.reg y := by unfold bumpIndex; split <;> rfl
@[simp] theorem bumpIndex_byteAt (x : Nibble) (s : State) (a : Nat) : (bumpIndex x s).byteAt a = s.byteAt a := by unfold bumpIndex; split <;> rfl
@[simp] theorem settleAwaiting_reg (j : Instr) (s : State) (y : Nibble) : (settleAwaiting j s).reg y = s.reg y := by unfold settleAwaiting; split <;> rfl
@[simp] theorem settleAwaiting_byteAt (j : Instr) (s : State) (a : Nat) : (settleAwaiting j s).byteAt a = s.byteAt a := by unfold settleAwaiting; split <;> rfl
@[simp] theorem writeFlagged_byteAt (x : Nibble) (r f : Byte) (o : AluVfOrder) (s : State) (a : Nat) : (writeFlagged x r f o s).byteAt a = s.byteAt a := by cases o <;> rfl
@[simp] theorem logicFlag_byteAt (s : State) (a : Nat) : (logicFlag s).byteAt a = s.byteAt a := by unfold logicFlag; split <;> rfl
@[simp] theorem setRegs_byteAt (bs : List Byte) (s : State) (k a : Nat) : (s.setRegs k bs).byteAt a = s.byteAt a := byteAt_congr (by simp) (by simp) a
@[simp] theorem drawAndFlag_byteAt (x y : Nibble) (rows : List Byte) (s : State) (a : Nat) : (drawAndFlag x y rows s).byteAt a = s.byteAt a := rfl

/-- What the two orders of R171 leave in a register. -/
theorem writeFlagged_reg (x y : Nibble) (r f : Byte) (o : AluVfOrder) (s : State) :
    (writeFlagged x r f o s).reg y =
      if y = x ∧ (y = vF → o = .flagFirst) then r else if y = vF then f else s.reg y := by
  cases o <;> simp only [writeFlagged, setReg_reg] <;> grind

/-- What a drawing leaves in a register (R122): VF is the collision. -/
theorem drawAndFlag_reg (x y z : Nibble) (rows : List Byte) (s : State) :
    (drawAndFlag x y rows s).reg z =
      if z = vF then flagByte (drawSprite (s.reg x) (s.reg y) rows s.fb).2 else s.reg z := by
  unfold drawAndFlag; rw [setReg_reg]; rfl

/-- What OR, AND and XOR leave in a register after LogicFlag (R176). -/
theorem logicFlag_reg (s : State) (y : Nibble) :
    (logicFlag s).reg y = if s.cfg.logicResetsVf = true ∧ y = vF then 0x00 else s.reg y := by
  unfold logicFlag; split <;> simp [*]

/-- `I` after FX55 and FX65 (R204, R205). -/
theorem bumpIndex_i (x : Nibble) (s : State) :
    (bumpIndex x s).i = if s.cfg.ldstIncrementI then BitVec.ofNat 16 (s.i.toNat + x.toNat + 1) else s.i := by
  unfold bumpIndex; split <;> rfl

/-- The registers FX65 leaves (R205): the loaded bytes from register `k` on, the others as before. -/
theorem setRegs_reg (bs : List Byte) : ∀ (s : State) (k : Nat) (y : Nibble),
    (s.setRegs k bs).reg y = if h : k ≤ y.toNat ∧ y.toNat - k < bs.length then bs[y.toNat - k] else s.reg y := by
  induction bs with
  | nil => intro s k y; simp [State.setRegs]
  | cons b bs ih =>
    intro s k y
    rw [State.setRegs, ih]
    have hy := y.isLt
    by_cases h1 : k + 1 ≤ y.toNat
    · have e : y.toNat - k = (y.toNat - (k + 1)) + 1 := by omega
      simp only [State.reg, Vector.getElem_setIfInBounds]
      grind
    · by_cases h2 : k = y.toNat
      · subst h2; simp [State.reg]
      · have : ¬ k ≤ y.toNat := by omega
        simp [State.reg, h1, this, h2]

/-- The bytes FX55 stores (R204): V0..Vx. -/
theorem regsUpTo_length (s : State) (x : Nibble) : (s.regsUpTo x).length = x.toNat + 1 := by
  have := x.isLt
  simp [State.regsUpTo]; omega

theorem regsUpTo_getElem (s : State) (x : Nibble) (k : Nat) (h : k < (s.regsUpTo x).length) :
    (s.regsUpTo x)[k] = s.reg (BitVec.ofNat 4 k) := by
  have hx := x.isLt
  have hk : k < x.toNat + 1 := by simpa [regsUpTo_length] using h
  have : (BitVec.ofNat 4 k).toNat = k := by simp; omega
  simp [State.regsUpTo, State.reg, this]

end Sys2Proof.Machine
end

