-- ==== Sys2Proof/Laws/Memory.lean ====
section
/-! SUPPORT. The laws of memory: every operation keeps the canonical form, a read after a write gives the value
written, and a write leaves every other address alone. -/

namespace Sys2Proof.Machine

theorem memSize_eq : memSize = 4096 := rfl
theorem fontSize_eq : fontSize = 80 := rfl

theorem inFont_iff (c : Config) (a : Nat) : inFont c a = true ↔ c.fontBase ≤ a ∧ a < c.fontBase + 80 := by
  simp only [inFont, Bool.and_eq_true, decide_eq_true_eq]; rfl

/-! ### The canonical form -/

theorem Memory.wfFrom_mono {c : Config} {m : Memory} {lo lo' : Nat} (h : lo' ≤ lo) (hm : Memory.wfFrom c lo m = true) :
    Memory.wfFrom c lo' m = true := by
  cases m with
  | nil => rfl
  | cons e m =>
    simp only [Memory.wfFrom, Bool.and_eq_true, decide_eq_true_eq] at hm ⊢
    exact ⟨⟨⟨by omega, hm.1.1.2⟩, hm.1.2⟩, hm.2⟩

/-- Storing a byte inside memory keeps the canonical form. -/
theorem Memory.wfFrom_write {c : Config} {a : Nat} {v : Byte} (ha : a < memSize) {m : Memory} : ∀ {lo : Nat}, lo ≤ a →
    Memory.wfFrom c lo m = true → Memory.wfFrom c lo (Memory.write c a v m) = true := by
  induction m with
  | nil =>
    intro lo hlo _
    unfold Memory.write; split
    · rfl
    · simp only [Memory.wfFrom, Bool.and_eq_true, decide_eq_true_eq]
      exact ⟨⟨⟨hlo, ha⟩, ‹_›⟩, trivial⟩
  | cons e m ih =>
    intro lo hlo hm
    obtain ⟨b, w⟩ := e
    simp only [Memory.wfFrom, Bool.and_eq_true, decide_eq_true_eq] at hm
    obtain ⟨⟨⟨h1, h2⟩, h3⟩, h4⟩ := hm
    unfold Memory.write
    split
    · split
      · simp only [Memory.wfFrom, Bool.and_eq_true, decide_eq_true_eq]
        exact ⟨⟨⟨h1, h2⟩, h3⟩, h4⟩
      · simp only [Memory.wfFrom, Bool.and_eq_true, decide_eq_true_eq]
        exact ⟨⟨⟨hlo, ha⟩, ‹_›⟩, ⟨⟨by omega, h2⟩, h3⟩, h4⟩
    · split
      · subst_vars
        split
        · exact Memory.wfFrom_mono (by omega) h4
        · simp only [Memory.wfFrom, Bool.and_eq_true, decide_eq_true_eq]
          exact ⟨⟨⟨hlo, ha⟩, ‹_›⟩, h4⟩
      · simp only [Memory.wfFrom, Bool.and_eq_true, decide_eq_true_eq]
        exact ⟨⟨⟨h1, h2⟩, h3⟩, ih (by omega) h4⟩

theorem Memory.wf_write {c : Config} {a : Nat} {v : Byte} {m : Memory} (ha : a < memSize)
    (hm : Memory.wf c m = true) : Memory.wf c (Memory.write c a v m) = true :=
  Memory.wfFrom_write ha (Nat.zero_le a) hm

theorem Memory.wf_writeAll {c : Config} (bs : List Byte) : ∀ {a : Nat} {m : Memory}, a + bs.length ≤ memSize →
    Memory.wf c m = true → Memory.wf c (Memory.writeAll c a bs m) = true := by
  induction bs with
  | nil => intro a m _ hm; exact hm
  | cons b bs ih =>
    intro a m ha hm
    simp only [List.length_cons] at ha
    exact ih (by omega) (Memory.wf_write (by omega) hm)

/-- Reset memory is canonical. -/
theorem Memory.wf_nil (c : Config) : Memory.wf c [] = true := rfl

/-! ### Read after write -/

theorem Memory.read_below {c : Config} {m : Memory} : ∀ {lo a : Nat}, Memory.wfFrom c lo m = true → a < lo →
    Memory.read c m a = resetByte c a := by
  induction m with
  | nil => intro lo a _ _; rfl
  | cons e m ih =>
    intro lo a hm ha
    obtain ⟨b, w⟩ := e
    simp only [Memory.wfFrom, Bool.and_eq_true, decide_eq_true_eq] at hm
    have hne : a ≠ b := by omega
    rw [Memory.read, if_neg hne]
    exact ih hm.2 (by omega)

/-- A write leaves every other address alone. -/
theorem Memory.read_write_other {c : Config} {a b : Nat} {v : Byte} (h : b ≠ a) {m : Memory} :
    Memory.read c (Memory.write c a v m) b = Memory.read c m b := by
  induction m with
  | nil => unfold Memory.write; split <;> simp [Memory.read, h]
  | cons e m ih =>
    obtain ⟨d, w⟩ := e
    unfold Memory.write
    split
    · split <;> simp [Memory.read, h]
    · split
      · subst_vars; split <;> simp [Memory.read, h]
      · simp only [Memory.read, ih]

theorem Memory.read_write_same_from {c : Config} {a : Nat} {v : Byte} {m : Memory} : ∀ {lo : Nat},
    Memory.wfFrom c lo m = true → Memory.read c (Memory.write c a v m) a = v := by
  induction m with
  | nil => intro lo _; unfold Memory.write; split <;> simp [Memory.read, *]
  | cons e m ih =>
    intro lo hm
    obtain ⟨d, w⟩ := e
    simp only [Memory.wfFrom, Bool.and_eq_true, decide_eq_true_eq] at hm
    unfold Memory.write
    split
    · split
      · have hne : a ≠ d := by omega
        rw [Memory.read, if_neg hne, Memory.read_below hm.2 (by omega), ‹v = _›]
      · simp [Memory.read]
    · split
      · subst_vars
        split
        · rw [Memory.read_below hm.2 (by omega), ‹v = _›]
        · simp [Memory.read]
      · rw [Memory.read, if_neg ‹_›]; exact ih hm.2

/-- In a canonical memory a read after a write gives the value written. -/
theorem Memory.read_write_same {c : Config} {a : Nat} {v : Byte} {m : Memory} (hm : Memory.wf c m = true) :
    Memory.read c (Memory.write c a v m) a = v := Memory.read_write_same_from hm

/-- Bytes outside a stored run read as before. -/
theorem Memory.read_writeAll_other {c : Config} (bs : List Byte) : ∀ {a b : Nat} {m : Memory},
    (b < a ∨ a + bs.length ≤ b) → Memory.read c (Memory.writeAll c a bs m) b = Memory.read c m b := by
  induction bs with
  | nil => intro a b m _; rfl
  | cons v bs ih =>
    intro a b m h
    simp only [List.length_cons] at h
    rw [Memory.writeAll, ih (by omega), Memory.read_write_other (by omega)]

/-- Bytes of a stored run read back. -/
theorem Memory.read_writeAll {c : Config} (bs : List Byte) : ∀ {a k : Nat} {m : Memory} (h : k < bs.length),
    a + bs.length ≤ memSize → Memory.wf c m = true → Memory.read c (Memory.writeAll c a bs m) (a + k) = bs[k] := by
  induction bs with
  | nil => intro a k m h; simp at h
  | cons v bs ih =>
    intro a k m h ha hm
    simp only [List.length_cons] at h ha
    rw [Memory.writeAll]
    cases k with
    | zero => rw [Memory.read_writeAll_other _ (by omega)]; exact Memory.read_write_same hm
    | succ k =>
      have := ih (a := a + 1) (k := k) (m := Memory.write c a v m) (by omega) (by omega) (Memory.wf_write (by omega) hm)
      simpa [Nat.add_assoc, Nat.add_comm 1 k] using this

end Sys2Proof.Machine
end

