-- ==== Sys2Proof/Laws/Ops.lean ====
section
/-! SUPPORT. One lemma for each shared operation that says once everything it can do; later proofs cite it. -/

namespace Sys2Proof.Machine

/-! ### Addresses and operands -/

theorem mask12_eq (w : Word) : mask12 w = w.toNat % 4096 := by
  have : (4095 : Nat) = 2 ^ 12 - 1 := rfl
  simp only [mask12, BitVec.toNat_and, BitVec.toNat_ofNat, Nat.reducePow, Nat.reduceMod]
  rw [this, Nat.and_two_pow_sub_one_eq_mod]

theorem mask12_lt (w : Word) : mask12 w < memSize := by
  rw [mask12_eq, memSize_eq]; omega

theorem ea_add (w : Word) (k : Nat) : ea w k = ea w 0 + k := by simp [ea]

theorem ea_inj {w : Word} {j k : Nat} : ea w j = ea w k ↔ j = k := by simp [ea]

/-- NibbleIndex (R108): the low nibble, or the halt of policy Halt above 0x0F. -/
theorem nibbleIndex_cases (c : Config) (v : Byte) :
    (nibbleIndex c v = .ok (v.setWidth 4) ∧ (v.toNat ≤ 0x0F ∨ c.wideIndexPolicy = .lowNibble)) ∨
    (nibbleIndex c v = .error (.operandOutOfRange v) ∧ v.toNat > 0x0F ∧ c.wideIndexPolicy = .halt) := by
  unfold nibbleIndex
  split
  · exact .inl ⟨rfl, .inl ‹_›⟩
  · split
    · exact .inl ⟨rfl, .inr ‹_›⟩
    · exact .inr ⟨rfl, by omega, ‹_›⟩

/-! ### Halts -/

@[simp] theorem orHalt_ok (s t : State) : orHalt s (.ok t) = .next t := rfl
@[simp] theorem orHalt_error (s : State) (r : HaltReason) : orHalt s (.error r) = .next (takeHalt r s) := rfl

/-- What an instruction that may halt answers: its own state, or the halt of the state before it (R265). -/
theorem orHalt_next {s t : State} {body : Except HaltReason State} (h : orHalt s body = .next t) :
    body = .ok t ∨ ∃ r, body = .error r ∧ t = takeHalt r s := by
  cases body with
  | ok u => left; simpa using h
  | error r => right; exact ⟨r, rfl, by simpa using h.symm⟩

/-! ### Byte accesses -/

theorem memRead_ok {s : State} {a : Nat} (h : a < memSize) : memRead s a = .ok (s.byteAt a) := if_pos h

theorem memRead_error {s : State} {a : Nat} (h : memSize ≤ a) : memRead s a = .error (.outOfBounds a) :=
  if_neg (by omega)

/-- R55: a write halts exactly on a bad address; otherwise it stores the byte, or drops it in the font ROM. -/
theorem memWrite_cases (s : State) (a : Nat) (b : Byte) :
    (badWrite s.cfg a ∧ memWrite s a b = .error (badWriteReason a)) ∨
    (¬ badWrite s.cfg a ∧ inFont s.cfg a = true ∧ s.cfg.fontWritePolicy = .ignore ∧ memWrite s a b = .ok s) ∨
    (¬ badWrite s.cfg a ∧ ¬ (inFont s.cfg a = true ∧ s.cfg.fontWritePolicy = .ignore) ∧ a < memSize ∧
      (inFont s.cfg a = true → s.cfg.fontWritePolicy = .write) ∧
      memWrite s a b = .ok { s with mem := Memory.write s.cfg a b s.mem }) := by
  unfold memWrite badWrite badWriteReason
  by_cases h : a < memSize
  · have h' : ¬ memSize ≤ a := by omega
    by_cases hf : inFont s.cfg a = true
    · cases hp : s.cfg.fontWritePolicy <;> simp [h, h', hf]
    · simp [h, h', hf]
  · have h' : memSize ≤ a := by omega
    simp [h, h']

/-! ### Blocks of bytes -/

/-- R58: a block whose last address lies in memory is read whole. -/
theorem readBlock_ok {s : State} (n : Nat) : ∀ k : Nat, (n = 0 ∨ ea s.i (k + n - 1) < memSize) →
    readBlock s k n = .ok ((List.range n).map fun j => s.byteAt (ea s.i (k + j))) := by
  induction n with
  | zero => intro k _; rfl
  | succ n ih =>
    intro k h
    have h0 : ea s.i k < memSize := by simp only [ea] at h ⊢; omega
    rw [readBlock, memRead_ok h0]
    dsimp only
    rw [ih (k + 1) (by simp only [ea] at h ⊢; omega), List.range_succ_eq_map]
    simp [Function.comp_def, Nat.add_assoc, Nat.add_comm 1]

/-- R58, R264: otherwise the first address past memory is the halt. -/
theorem readBlock_error {s : State} (n : Nat) : ∀ k : Nat, k ≤ memSize - mask12 s.i → memSize < ea s.i (k + n) →
    readBlock s k n = .error (.outOfBounds memSize) := by
  induction n with
  | zero => intro k hk h; have := mask12_lt s.i; simp only [ea] at h; omega
  | succ n ih =>
    intro k hk h
    have := mask12_lt s.i
    by_cases h0 : ea s.i k < memSize
    · rw [readBlock, memRead_ok h0]
      dsimp only
      rw [ih (k + 1) (by simp only [ea] at h0; omega) (by simp only [ea] at h ⊢; omega)]
    · have e : ea s.i k = memSize := by simp only [ea] at h0 ⊢; omega
      rw [readBlock, e, memRead_error (Nat.le_refl _)]

/-- What a block write leaves alone: everything but memory. -/
theorem writeBlock_fields (bs : List Byte) : ∀ (k : Nat) (s t : State), writeBlock k bs s = .ok t →
    ∃ m, t = { s with mem := m } := by
  induction bs with
  | nil => intro k s t h; exact ⟨s.mem, by simpa [writeBlock] using h.symm⟩
  | cons b bs ih =>
    intro k s t h
    rw [writeBlock] at h
    obtain ⟨_, e⟩ | ⟨_, _, _, e⟩ | ⟨_, _, _, _, e⟩ := memWrite_cases s (ea s.i k) b <;> rw [e] at h
    · simp at h
    · exact ih _ _ _ h
    · obtain ⟨m, rfl⟩ := ih _ _ _ h
      exact ⟨m, rfl⟩

/-- R58: a block with no bad address is written. -/
theorem writeBlock_ok (bs : List Byte) : ∀ (k : Nat) (s : State),
    (∀ j, j < bs.length → ¬ badWrite s.cfg (ea s.i (k + j))) → ∃ t, writeBlock k bs s = .ok t := by
  induction bs with
  | nil => intro k s _; exact ⟨s, rfl⟩
  | cons b bs ih =>
    intro k s h
    rw [writeBlock]
    have h' : ∀ j, j < bs.length → ¬ badWrite s.cfg (ea s.i (k + 1 + j)) := by
      intro j hj
      have := h (j + 1) (by simpa using hj)
      rwa [Nat.add_right_comm, Nat.add_assoc]
    obtain ⟨hb, _⟩ | ⟨_, _, _, e⟩ | ⟨_, _, _, _, e⟩ := memWrite_cases s (ea s.i k) b
    · exact absurd hb (h 0 (by simp))
    · rw [e]; exact ih _ _ h'
    · rw [e]; exact ih (k + 1) _ h'

/-- R264: a block with a bad address halts at the first. -/
theorem writeBlock_error (bs : List Byte) : ∀ (k : Nat) (s : State) (j : Nat), j < bs.length →
    (∀ i, i < j → ¬ badWrite s.cfg (ea s.i (k + i))) → badWrite s.cfg (ea s.i (k + j)) →
    writeBlock k bs s = .error (badWriteReason (ea s.i (k + j))) := by
  induction bs with
  | nil => intro k s j hj; simp at hj
  | cons b bs ih =>
    intro k s j hj h hb
    rw [writeBlock]
    cases j with
    | zero =>
      obtain ⟨_, e⟩ | ⟨hn, _⟩ | ⟨hn, _⟩ := memWrite_cases s (ea s.i k) b
      · rw [e]; rfl
      · exact absurd hb hn
      · exact absurd hb hn
    | succ j =>
      have e1 : k + (j + 1) = k + 1 + j := by omega
      have h' : ∀ i, i < j → ¬ badWrite s.cfg (ea s.i (k + 1 + i)) := by
        intro i hi
        have := h (i + 1) (by omega)
        rwa [show k + (i + 1) = k + 1 + i by omega] at this
      rw [e1] at hb ⊢
      obtain ⟨hb', _⟩ | ⟨_, _, _, e⟩ | ⟨_, _, _, _, e⟩ := memWrite_cases s (ea s.i k) b
      · exact absurd hb' (h 0 (by omega))
      · rw [e]; exact ih (k + 1) s j (by simpa using hj) h' hb
      · rw [e]
        exact ih (k + 1) { s with mem := Memory.write s.cfg (ea s.i k) b s.mem } j (by simpa using hj) h' hb

/-- R261: the reasons a block write from the first address on can halt with. -/
theorem writeBlock_reason (bs : List Byte) : ∀ (k : Nat) (s : State) (r : HaltReason), k ≤ memSize - mask12 s.i →
    writeBlock k bs s = .error r → r.PastMemory ∨ r.FontWrite s.cfg := by
  induction bs with
  | nil => intro k s r _ h; simp [writeBlock] at h
  | cons b bs ih =>
    intro k s r hk h
    have hm := mask12_lt s.i
    rw [writeBlock] at h
    obtain ⟨hb, e⟩ | ⟨hn, _, _, e⟩ | ⟨_, _, hl, _, e⟩ := memWrite_cases s (ea s.i k) b <;> rw [e] at h
    · have hr : r = badWriteReason (ea s.i k) := by simpa using h.symm
      subst hr
      unfold badWriteReason
      by_cases hp : memSize ≤ ea s.i k
      · have e : ea s.i k = memSize := by simp only [ea] at hp ⊢; omega
        rw [if_pos hp, e]; exact .inl rfl
      · rw [if_neg hp]
        obtain h1 | ⟨h1, h2⟩ := hb
        · exact absurd h1 hp
        · exact .inr ⟨h2, _, h1, rfl⟩
    · have hl : ¬ memSize ≤ ea s.i k := fun hp => hn (.inl hp)
      exact ih (k + 1) s r (by simp only [ea] at hl; omega) h
    · exact ih (k + 1) { s with mem := Memory.write s.cfg (ea s.i k) b s.mem } r (by simp only [ea] at hl ⊢; omega) h

/-- Every byte outside the block reads as before. -/
theorem writeBlock_byteAt_other (bs : List Byte) : ∀ (k : Nat) (s t : State) (a : Nat), writeBlock k bs s = .ok t →
    (∀ j, j < bs.length → a ≠ ea s.i (k + j)) → t.byteAt a = s.byteAt a := by
  induction bs with
  | nil => intro k s t a h _; simp [writeBlock] at h; rw [h]
  | cons b bs ih =>
    intro k s t a h ha
    rw [writeBlock] at h
    have ha' : ∀ j, j < bs.length → a ≠ ea s.i (k + 1 + j) := by
      intro j hj
      have := ha (j + 1) (by simpa using hj)
      rwa [show k + (j + 1) = k + 1 + j by omega] at this
    obtain ⟨_, e⟩ | ⟨_, _, _, e⟩ | ⟨_, _, _, _, e⟩ := memWrite_cases s (ea s.i k) b <;> rw [e] at h
    · simp at h
    · exact ih _ _ _ _ h ha'
    · rw [ih _ _ _ _ h ha']
      exact Memory.read_write_other (ha 0 (by simp))

/-- A byte that no write may change: outside the font ROM, or in it unless it is RAM, reads as before. -/
theorem writeBlock_font (bs : List Byte) : ∀ (k : Nat) (s t : State) (a : Nat), writeBlock k bs s = .ok t →
    s.cfg.fontWritePolicy ≠ .write → inFont s.cfg a = true → t.byteAt a = s.byteAt a := by
  induction bs with
  | nil => intro k s t a h _ _; simp [writeBlock] at h; rw [h]
  | cons b bs ih =>
    intro k s t a h hp hf
    rw [writeBlock] at h
    obtain ⟨_, e⟩ | ⟨_, _, _, e⟩ | ⟨_, _, _, hw, e⟩ := memWrite_cases s (ea s.i k) b <;> rw [e] at h
    · simp at h
    · exact ih _ _ _ _ h hp hf
    · rw [ih _ _ _ _ h hp hf]
      refine Memory.read_write_other fun he => hp (hw ?_)
      rw [← he]; exact hf

/-- A block write keeps the canonical form. -/
theorem writeBlock_wf (bs : List Byte) : ∀ (k : Nat) (s t : State), writeBlock k bs s = .ok t →
    Memory.wf s.cfg s.mem = true → Memory.wf t.cfg t.mem = true := by
  induction bs with
  | nil => intro k s t h hm; simp [writeBlock] at h; rw [← h]; exact hm
  | cons b bs ih =>
    intro k s t h hm
    rw [writeBlock] at h
    obtain ⟨_, e⟩ | ⟨_, _, _, e⟩ | ⟨_, _, hl, _, e⟩ := memWrite_cases s (ea s.i k) b <;> rw [e] at h
    · simp at h
    · exact ih _ _ _ h hm
    · exact ih _ _ _ h (Memory.wf_write hl hm)

/-- The bytes a block write leaves in the block. -/
theorem writeBlock_byteAt (bs : List Byte) : ∀ (k : Nat) (s t : State) (j : Nat) (hj : j < bs.length),
    writeBlock k bs s = .ok t → Memory.wf s.cfg s.mem = true →
    t.byteAt (ea s.i (k + j)) = afterWrite s (ea s.i (k + j)) bs[j] := by
  induction bs with
  | nil => intro k s t j hj; simp at hj
  | cons b bs ih =>
    intro k s t j hj h hm
    rw [writeBlock] at h
    obtain ⟨_, e⟩ | ⟨_, hf, hi, e⟩ | ⟨_, hn, hl, _, e⟩ := memWrite_cases s (ea s.i k) b <;> rw [e] at h
    · simp at h
    · cases j with
      | zero =>
        rw [writeBlock_byteAt_other _ _ _ _ _ h (by intro j _ he; rw [ea_inj] at he; omega)]
        simp [afterWrite, hf, hi]
      | succ j =>
        have := ih _ _ _ j (by simpa using hj) h hm
        rwa [show k + 1 + j = k + (j + 1) by omega] at this
    · cases j with
      | zero =>
        rw [writeBlock_byteAt_other _ _ _ _ _ h (by intro j _ he; rw [ea_inj] at he; omega)]
        simp only [afterWrite, Nat.add_zero, if_neg hn, List.getElem_cons_zero]
        exact Memory.read_write_same hm
      | succ j =>
        have := ih _ _ _ j (by simpa using hj) h (Memory.wf_write hl hm)
        rw [show k + 1 + j = k + (j + 1) by omega] at this
        rw [this]
        simp only [afterWrite, List.getElem_cons_succ]
        split
        · exact Memory.read_write_other (by rw [ne_eq, ea_inj]; omega)
        · rfl

/-! ### The call stack -/

theorem push_ok {a : Word} {s : State} (h : s.stack.length < s.cfg.stackDepth) :
    push a s = .ok { s with stack := s.stack ++ [a] } := if_pos h

theorem push_error {a : Word} {s : State} (h : s.cfg.stackDepth ≤ s.stack.length) :
    push a s = .error .stackOverflow := if_neg (by omega)

theorem pop_nil {s : State} (h : s.stack = []) : pop s = .error .stackUnderflow := by simp [pop, h]

theorem pop_concat {s : State} {st : List Word} {a : Word} (h : s.stack = st ++ [a]) :
    pop s = .ok (a, { s with stack := st }) := by simp [pop, h]

/-- Everything Pop can do (R31). -/
theorem pop_cases (s : State) :
    (s.stack = [] ∧ pop s = .error .stackUnderflow) ∨
    ∃ st a, s.stack = st ++ [a] ∧ pop s = .ok (a, { s with stack := st }) := by
  rcases List.eq_nil_or_concat s.stack with h | ⟨st, a, h⟩
  · exact .inl ⟨h, pop_nil h⟩
  · exact .inr ⟨st, a, by simpa using h, pop_concat (by simpa using h)⟩

/-! ### The framebuffer -/

@[simp] theorem clear_pixel (x : Fin 64) (y : Fin 32) : Frame.clear.pixel x y = false := by
  simp [Frame.clear, Frame.pixel]

@[simp] theorem setPixel_pixel (f : Frame) (x x' : Fin 64) (y y' : Fin 32) (b : Bool) :
    (f.setPixel x y b).pixel x' y' = if x' = x ∧ y' = y then b else f.pixel x' y' := by
  simp only [Frame.setPixel, Frame.pixel, Vector.getElem_set]
  by_cases hy : y.val = y'.val
  · have : y' = y := Fin.ext hy.symm
    subst this
    simp only [if_true, and_true, Vector.getElem_set]
    by_cases hx : x.val = x'.val
    · have : x' = x := Fin.ext hx.symm
      subst this; simp
    · have : ¬ x' = x := fun h => hx (by rw [h])
      simp [hx, this]
  · have : ¬ y' = y := fun h => hy (by rw [h])
    simp [hy, this]

/-- R126's consequence for the drawing loop: over distinct cells, a cell is inverted exactly when it is in the
list, and the collision is a lit cell of the list. -/
theorem foldl_drawCell (ps : List (Fin 64 × Fin 32)) : ∀ (f : Frame) (b : Bool), ps.Nodup →
    (∀ x y, (ps.foldl drawCell (f, b)).1.pixel x y = (f.pixel x y != decide ((x, y) ∈ ps))) ∧
    ((ps.foldl drawCell (f, b)).2 = true ↔ b = true ∨ ∃ p ∈ ps, f.pixel p.1 p.2 = true) := by
  induction ps with
  | nil => intro f b _; simp
  | cons p ps ih =>
    intro f b hn
    obtain ⟨hp, hn⟩ := List.nodup_cons.mp hn
    obtain ⟨h1, h2⟩ := ih (f.setPixel p.1 p.2 (!f.pixel p.1 p.2)) (b || f.pixel p.1 p.2) hn
    have e : List.foldl drawCell (f, b) (p :: ps) =
        List.foldl drawCell (f.setPixel p.1 p.2 (!f.pixel p.1 p.2), b || f.pixel p.1 p.2) ps := rfl
    rw [e]
    refine ⟨fun x y => ?_, ?_⟩
    · rw [h1, setPixel_pixel]
      by_cases hc : x = p.1 ∧ y = p.2
      · obtain ⟨rfl, rfl⟩ := hc
        have : ¬ (p.1, p.2) ∈ ps := hp
        simp [this]
      · have hne : ¬ (x, y) = p := fun h => hc (by rw [← h]; exact ⟨rfl, rfl⟩)
        rw [if_neg hc]; simp [hne]
    · rw [h2]
      have key : ∀ q ∈ ps, (f.setPixel p.1 p.2 (!f.pixel p.1 p.2)).pixel q.1 q.2 = f.pixel q.1 q.2 := by
        intro q hq
        rw [setPixel_pixel, if_neg]
        rintro ⟨ha, hb⟩
        have e : q = p := Prod.ext ha hb
        exact hp (e ▸ hq)
      simp only [List.exists_mem_cons_iff, Bool.or_eq_true, or_assoc]
      refine or_congr_right (or_congr_right ?_)
      constructor <;> rintro ⟨q, hq, h⟩ <;> exact ⟨q, hq, by rw [key q hq] at *; exact h⟩

theorem spriteCell_fst (x0 y0 : Byte) (c r : Nat) : (spriteCell x0 y0 c r).1.val = (x0.toNat + c) % 64 := rfl
theorem spriteCell_snd (x0 y0 : Byte) (c r : Nat) : (spriteCell x0 y0 c r).2.val = (y0.toNat + r) % 32 := rfl

/-- Membership in the cells of the rows from row `r` on. -/
theorem mem_spriteCells (x0 y0 : Byte) (bs : List Byte) : ∀ (r : Nat) (p : Fin 64 × Fin 32),
    p ∈ spriteCells x0 y0 r bs ↔
      ∃ j c, ∃ h : j < bs.length, c < 8 ∧ spriteBit bs[j] c = true ∧ p = spriteCell x0 y0 c (r + j) := by
  induction bs with
  | nil => intro r p; simp [spriteCells]
  | cons b bs ih =>
    intro r p
    rw [spriteCells, List.mem_append, ih, rowCells]
    simp only [List.mem_map, List.mem_filter, List.mem_range]
    constructor
    · rintro (⟨c, ⟨hc, hb⟩, rfl⟩ | ⟨j, c, hj, hc, hb, rfl⟩)
      · exact ⟨0, c, by simp, hc, hb, rfl⟩
      · exact ⟨j + 1, c, by simpa using hj, hc, by simpa using hb, by rw [show r + 1 + j = r + (j + 1) by omega]⟩
    · rintro ⟨j, c, hj, hc, hb, rfl⟩
      cases j with
      | zero => exact .inl ⟨c, ⟨hc, hb⟩, rfl⟩
      | succ j =>
        exact .inr ⟨j, c, by simpa using hj, hc, by simpa using hb, by rw [show r + 1 + j = r + (j + 1) by omega]⟩

/-- R126: the wrapped cells of one sprite are all distinct. -/
theorem nodup_spriteCells (x0 y0 : Byte) (bs : List Byte) : ∀ r : Nat, bs.length ≤ 32 →
    (spriteCells x0 y0 r bs).Nodup := by
  induction bs with
  | nil => intro r _; exact List.nodup_nil
  | cons b bs ih =>
    intro r hl
    simp only [List.length_cons] at hl
    rw [spriteCells, List.nodup_append]
    refine ⟨?_, ih (r + 1) (by omega), ?_⟩
    · refine List.Nodup.map_on ?_ (List.Nodup.filter _ List.nodup_range)
      intro c hc d hd h
      have hc' : c < 8 := by simpa using (List.mem_filter.mp hc).1
      have hd' : d < 8 := by simpa using (List.mem_filter.mp hd).1
      have := congrArg (fun p => p.1.val) h
      simp only [spriteCell_fst] at this
      omega
    · intro p hp q hq h
      subst h
      obtain ⟨c, hc, rfl⟩ := List.mem_map.mp hp
      obtain ⟨j, d, hj, hd, _, h⟩ := (mem_spriteCells x0 y0 bs (r + 1) _).mp hq
      have := congrArg (fun p => p.2.val) h
      simp only [spriteCell_snd] at this
      omega

end Sys2Proof.Machine
end

