-- ==== Sys2Proof/Laws/PerInstr.lean ====
section
/-! SUPPORT. Per instruction: its word is one of its own table row (spec R90, opcode_table.json). -/

namespace Sys2Proof.Laws.TableRow

/-- The word of an instruction has its row's fixed bits. -/
def Statement (i : Instr) : Prop := encode i &&& i.row.mask = i.row.value

theorem cls : Statement .cls := rfl
theorem ret : Statement .ret := rfl
theorem jp (nnn : Addr12) : Statement (.jp nnn) := layoutNNN_row _ _
theorem call (nnn : Addr12) : Statement (.call nnn) := layoutNNN_row _ _
theorem seImm (x : Nibble) (kk : Byte) : Statement (.seImm x kk) := layoutXKK_row _ _ _
theorem sneImm (x : Nibble) (kk : Byte) : Statement (.sneImm x kk) := layoutXKK_row _ _ _
theorem seReg (x : Nibble) (y : Nibble) : Statement (.seReg x y) := layoutXY_row _ _ _ _
theorem ldImm (x : Nibble) (kk : Byte) : Statement (.ldImm x kk) := layoutXKK_row _ _ _
theorem addImm (x : Nibble) (kk : Byte) : Statement (.addImm x kk) := layoutXKK_row _ _ _
theorem ldReg (x : Nibble) (y : Nibble) : Statement (.ldReg x y) := layoutXY_row _ _ _ _
theorem orReg (x : Nibble) (y : Nibble) : Statement (.orReg x y) := layoutXY_row _ _ _ _
theorem andReg (x : Nibble) (y : Nibble) : Statement (.andReg x y) := layoutXY_row _ _ _ _
theorem xorReg (x : Nibble) (y : Nibble) : Statement (.xorReg x y) := layoutXY_row _ _ _ _
theorem addReg (x : Nibble) (y : Nibble) : Statement (.addReg x y) := layoutXY_row _ _ _ _
theorem subReg (x : Nibble) (y : Nibble) : Statement (.subReg x y) := layoutXY_row _ _ _ _
theorem shr (x : Nibble) (y : Nibble) : Statement (.shr x y) := layoutXY_row _ _ _ _
theorem subnReg (x : Nibble) (y : Nibble) : Statement (.subnReg x y) := layoutXY_row _ _ _ _
theorem shl (x : Nibble) (y : Nibble) : Statement (.shl x y) := layoutXY_row _ _ _ _
theorem sneReg (x : Nibble) (y : Nibble) : Statement (.sneReg x y) := layoutXY_row _ _ _ _
theorem ldI (nnn : Addr12) : Statement (.ldI nnn) := layoutNNN_row _ _
theorem jpV0 (nnn : Addr12) : Statement (.jpV0 nnn) := layoutNNN_row _ _
theorem rnd (x : Nibble) (kk : Byte) : Statement (.rnd x kk) := layoutXKK_row _ _ _
theorem drw (x : Nibble) (y : Nibble) (n : Nibble) : Statement (.drw x y n) := layoutXYN_row _ _ _ _
theorem skp (x : Nibble) : Statement (.skp x) := layoutXFN_row _ _ _
theorem sknp (x : Nibble) : Statement (.sknp x) := layoutXFN_row _ _ _
theorem ldVxDt (x : Nibble) : Statement (.ldVxDt x) := layoutXFN_row _ _ _
theorem ldVxK (x : Nibble) : Statement (.ldVxK x) := layoutXFN_row _ _ _
theorem ldDtVx (x : Nibble) : Statement (.ldDtVx x) := layoutXFN_row _ _ _
theorem ldStVx (x : Nibble) : Statement (.ldStVx x) := layoutXFN_row _ _ _
theorem addIVx (x : Nibble) : Statement (.addIVx x) := layoutXFN_row _ _ _
theorem ldFVx (x : Nibble) : Statement (.ldFVx x) := layoutXFN_row _ _ _
theorem ldBVx (x : Nibble) : Statement (.ldBVx x) := layoutXFN_row _ _ _
theorem ldMemVx (x : Nibble) : Statement (.ldMemVx x) := layoutXFN_row _ _ _
theorem ldVxMem (x : Nibble) : Statement (.ldVxMem x) := layoutXFN_row _ _ _

end Sys2Proof.Laws.TableRow
end

