-- ==== Sys2Proof/Laws/Step.lean ====
section
/-! SUPPORT. What a step can do, said once. -/

namespace Sys2Proof.Machine

/-- The state with the host's next operation taken differs in the queue and the draw counter only. -/
theorem nextOp_state (s : State) : ∃ ops d, (nextOp s).2 = { s with pending := ops, draws := d } := by
  unfold nextOp
  split
  · exact ⟨_, _, rfl⟩
  · exact ⟨s.pending, _, rfl⟩

@[simp] theorem fetchInstr_sample (inp : StepInput) (s : State) : fetchInstr (sample inp s) = fetchInstr s := rfl

theorem fetchInstr_of_word {s : State} (h : mask12 s.pc + 1 < memSize) :
    fetchInstr s = match decodeWord (packWord (s.byteAt (mask12 s.pc)) (s.byteAt (mask12 s.pc + 1))) with
      | .instr i => .ok i
      | .unknown w => .error (.unknownInstruction w) := by
  unfold fetchInstr fetchWord
  rw [if_pos h]
  all_goals rfl

/-- A fetch at masked address 0xFFF (R60). -/
theorem fetchInstr_past {s : State} (h : mask12 s.pc + 1 = memSize) :
    fetchInstr s = .error (.outOfBounds memSize) := by
  simp only [fetchInstr, fetchWord, h, Nat.lt_irrefl, if_false]

/-- The two bytes at PC, packed, are the word at PC. -/
theorem packWord_of_wordAtPc {s : State} {w : Word} (h : WordAtPc s w) :
    packWord (s.byteAt (mask12 s.pc)) (s.byteAt (mask12 s.pc + 1)) = w := by
  apply BitVec.eq_of_toNat_eq; rw [packWord_toNat, h.2]

/-- When an instruction is fetched, some word that decodes to it stands at PC. -/
theorem fetchInstr_ok {s : State} {i : Instr} (h : fetchInstr s = .ok i) :
    ∃ w, WordAtPc s w ∧ decodeWord w = .instr i := by
  by_cases hp : mask12 s.pc + 1 < memSize
  · refine ⟨_, ⟨hp, packWord_toNat _ _⟩, ?_⟩
    rw [fetchInstr_of_word hp] at h
    split at h
    · rename_i j e; rw [e]; simpa using h
    · simp at h
  · simp [fetchInstr, fetchWord, hp] at h

theorem afterExec_next {i : Instr} {o : Result} {t : State} (h : afterExec i o = .next t) :
    ∃ u, o = .next u ∧ t = settleAwaiting i u := by
  cases o with
  | next u => exact ⟨u, rfl, by simpa [afterExec] using h.symm⟩
  | fault r => simp [afterExec] at h
  | refused r => simp [afterExec] at h

/-- A step of a running block: the halt of its fetch, or the instruction and what stands around it. -/
theorem step_of_stepping {s u : State} {inp : StepInput} (h : Stepping s inp u) :
    step s = match fetchInstr s with
      | .error r => .next (takeHalt r u)
      | .ok i => afterExec i (exec i u) := by
  obtain ⟨hr, ⟨ops, hp, rfl⟩ | ⟨hp, rfl, rfl⟩⟩ := h <;> simp [step, nextOp, hp, stepWith, hr, sample] <;> rfl

/-- A step of a halted block takes the host's operation and does nothing else (R103). -/
theorem step_of_halted {s : State} {inp : StepInput} (hr : s.run = .halted) (ho : (nextOp s).1 = .step inp) :
    step s = .next (nextOp s).2 := by
  obtain ⟨ops, d, e⟩ := nextOp_state s
  simp [step, ho, stepWith, e, hr]

/-- Everything one operation of the block can do: a tick; nothing, in Halted; a halt of the fetch; an instruction. -/
theorem step_cases {s t : State} (h : step s = .next t) :
    ((nextOp s).1 = .tick ∧ t = tick (nextOp s).2) ∨
    ∃ inp, (nextOp s).1 = .step inp ∧
      ((s.run = .halted ∧ t = (nextOp s).2) ∨
       (s.run = .running ∧ ∃ r, fetchInstr s = .error r ∧ t = takeHalt r (sample inp (nextOp s).2)) ∨
       (s.run = .running ∧ ∃ i u, fetchInstr s = .ok i ∧ exec i (sample inp (nextOp s).2) = .next u ∧
          t = settleAwaiting i u)) := by
  obtain ⟨hr, hf⟩ : (nextOp s).2.run = s.run ∧ fetchInstr (nextOp s).2 = fetchInstr s := by
    obtain ⟨ops, d, e⟩ := nextOp_state s
    rw [e]; exact ⟨rfl, rfl⟩
  unfold step at h
  cases hop : (nextOp s).1 with
  | tick => rw [hop] at h; exact .inl ⟨rfl, by simpa using h.symm⟩
  | step inp =>
    rw [hop] at h
    refine .inr ⟨inp, rfl, ?_⟩
    simp only [stepWith, hr, fetchInstr_sample, hf] at h
    cases hrun : s.run with
    | halted => rw [hrun] at h; exact .inl ⟨rfl, by simpa using h.symm⟩
    | running =>
      rw [hrun] at h
      right
      cases hfe : fetchInstr s with
      | error r => rw [hfe] at h; exact .inl ⟨rfl, r, rfl, by simpa using h.symm⟩
      | ok i =>
        rw [hfe] at h
        obtain ⟨u, hu, ht⟩ := afterExec_next h
        exact .inr ⟨rfl, i, u, rfl, hu, ht⟩

end Sys2Proof.Machine
end

