-- ==== Sys2Proof/Tests/Slice0.lean ====
section
/-! SUPPORT. The model's own tests. Expected results are those of spec/95_test_vectors.md (the section is named at each
group) or written out from the encodings of R90 by hand; and the witnesses: for every obligation with hypotheses, a
concrete state and operands that meet them. -/

namespace Sys2Proof.Tests

open Sys2Proof Sys2Proof.Machine

-- One theorem after another: a kernel evaluation waits for the theorems before it, and each wait holds a thread.
set_option Elab.async false

/-! ### Helpers -/

/-- Reset, the host about to step with no key down, no key pressed and random byte 0 (95_test_vectors.md, preamble). -/
def start : State := { State.reset with pending := [.step quietInput] }

/-- V1 and V2 set. -/
def regs12 (a b : Byte) (s : State) : State := (s.setReg 1 a).setReg 2 b

/-- One step of the word `w` at PC in `s`, and what must hold after it. -/
def runs (w : Nat) (s : State) (p : State → Bool) : Bool :=
  match step (s.withFetchWord 16 w) with
  | .next t => p t
  | _ => false

/-- One step from memory as it stands. -/
def steps (s : State) (p : State → Bool) : Bool :=
  match step s with
  | .next t => p t
  | _ => false

/-- Bytes put into memory. -/
def poke (a : Nat) (bs : List Byte) (s : State) : State := { s with mem := Memory.writeAll s.cfg a bs s.mem }

/-- The default configuration with one parameter changed. -/
def withCfg (f : Config → Config) (s : State) : State := { s with cfg := f s.cfg }

/-- The cells that are lit. -/
def lit (f : Frame) : List (Nat × Nat) :=
  f.toList.zipIdx.flatMap fun row => (row.1.toList.zipIdx.filter (·.1)).map fun cell => (cell.2, row.2)

/-! ### WellFormed: an ill-formed term for each check (R8, R64) -/

theorem test_default_is_admitted : Config.default.admitted = true := by decide
theorem test_font_above_load_is_refused :
    ({ Config.default with fontBase := 0x1B1 } : Config).fontBelowLoad = false ∧
    ({ Config.default with fontBase := 0x1B0 } : Config).admitted = true := by decide
theorem test_load_past_memory_is_refused :
    ({ Config.default with loadAddr := 0x1000 } : Config).loadInMemory = false ∧
    ({ Config.default with loadAddr := 0xFFF } : Config).admitted = true := by decide
theorem test_empty_stack_is_refused :
    ({ Config.default with stackDepth := 0 } : Config).stackNonempty = false ∧
    ({ Config.default with stackDepth := 1 } : Config).admitted = true := by decide
theorem test_ill_formed_configurations_are_not_admitted :
    ({ Config.default with fontBase := 0x1B1 } : Config).admitted = false ∧
    ({ Config.default with loadAddr := 0x1000 } : Config).admitted = false ∧
    ({ Config.default with stackDepth := 0 } : Config).admitted = false := by decide
/-- 2.8: 0xE00 bytes fit, 0xE01 do not. -/
theorem test_image_fits :
    Config.default.imageFits (List.replicate 0xE00 0) = true ∧
    Config.default.imageFits (List.replicate 0xE01 0) = false := by
  simp only [Config.imageFits, List.length_replicate]; decide

/-! ### Decoding: every constructor, words written out from R90 (and 2.1) -/

theorem test_decode_display :
    decodeWord 0b0000000011100000 = .instr .cls ∧ decodeWord 0b1101000100101111 = .instr (.drw 1 2 0xF) := by decide
theorem test_decode_control :
    decodeWord 0b0000000011101110 = .instr .ret ∧ decodeWord 0b0001001000110100 = .instr (.jp 0x234) ∧
    decodeWord 0b0010111111111110 = .instr (.call 0xFFE) ∧ decodeWord 0b1011000100100011 = .instr (.jpV0 0x123) := by
  decide
theorem test_decode_skips :
    decodeWord 0b0011001100101010 = .instr (.seImm 3 0x2A) ∧ decodeWord 0b0100001100101010 = .instr (.sneImm 3 0x2A) ∧
    decodeWord 0b0101000100100000 = .instr (.seReg 1 2) ∧ decodeWord 0b1001000100100000 = .instr (.sneReg 1 2) := by
  decide
theorem test_decode_loads :
    decodeWord 0b0110101001000010 = .instr (.ldImm 0xA 0x42) ∧ decodeWord 0b0111001000000011 = .instr (.addImm 2 3) ∧
    decodeWord 0b1000000100100000 = .instr (.ldReg 1 2) ∧ decodeWord 0b1100001100001111 = .instr (.rnd 3 0x0F) := by
  decide
theorem test_decode_logic :
    decodeWord 0b1000000100100001 = .instr (.orReg 1 2) ∧ decodeWord 0b1000000100100010 = .instr (.andReg 1 2) ∧
    decodeWord 0b1000000100100011 = .instr (.xorReg 1 2) := by decide
theorem test_decode_arithmetic :
    decodeWord 0b1000000100100100 = .instr (.addReg 1 2) ∧ decodeWord 0b1000000100100101 = .instr (.subReg 1 2) ∧
    decodeWord 0b1000101010110110 = .instr (.shr 0xA 0xB) ∧ decodeWord 0b1000000100100111 = .instr (.subnReg 1 2) ∧
    decodeWord 0b1000101010111110 = .instr (.shl 0xA 0xB) := by decide
theorem test_decode_index :
    decodeWord 0b1010001011110000 = .instr (.ldI 0x2F0) ∧ decodeWord 0b1111000100011110 = .instr (.addIVx 1) ∧
    decodeWord 0b1111011100101001 = .instr (.ldFVx 7) ∧ decodeWord 0b1111001100110011 = .instr (.ldBVx 3) ∧
    decodeWord 0b1111001001010101 = .instr (.ldMemVx 2) ∧ decodeWord 0b1111001001100101 = .instr (.ldVxMem 2) := by
  decide
theorem test_decode_keypad_timers :
    decodeWord 0b1110001010011110 = .instr (.skp 2) ∧ decodeWord 0b1110001010100001 = .instr (.sknp 2) ∧
    decodeWord 0b1111000100000111 = .instr (.ldVxDt 1) ∧ decodeWord 0b1111001100001010 = .instr (.ldVxK 3) ∧
    decodeWord 0b1111000100010101 = .instr (.ldDtVx 1) ∧ decodeWord 0b1111000100011000 = .instr (.ldStVx 1) := by
  decide
/-- 2.1: the words it lists as Unknown, and the first byte at the lower address (R59). -/
theorem test_decode_unknown :
    decodeWord 0x0000 = .unknown 0x0000 ∧ decodeWord 0x00E1 = .unknown 0x00E1 ∧ decodeWord 0x0123 = .unknown 0x0123 ∧
    decodeWord 0x5121 = .unknown 0x5121 ∧ decodeWord 0x9121 = .unknown 0x9121 ∧ decodeWord 0x8128 = .unknown 0x8128 ∧
    decodeWord 0x812F = .unknown 0x812F ∧ decodeWord 0xE19F = .unknown 0xE19F ∧ decodeWord 0xF100 = .unknown 0xF100 ∧
    decodeWord 0xFFFF = .unknown 0xFFFF := by decide
theorem test_decode_bytes :
    decodeBytes [0x6A, 0x42, 0x77] = .ok (.ldImm 0xA 0x42, [0x77]) ∧ decodeBytes [0x6A] = .error .truncated ∧
    decodeTableWord 16 0x8AB6 = some (.shr 0xA 0xB) ∧ decodeTableWord 16 0x00E1 = none := by
  refine ⟨rfl, rfl, rfl, rfl⟩
theorem test_encode :
    encode (.drw 1 2 0xF) = 0xD12F ∧ encode (.jpV0 0x123) = 0xB123 ∧ encode (.shl 0xA 0xB) = 0x8ABE ∧
    encode (.ldVxMem 2) = 0xF265 ∧ encodeBytes (.jp 0x234) = [0x12, 0x34] := by decide

/-! ### One step each: display (1 E6, 2.6) -/

theorem test_cls : runs 0x00E0 (start.setReg 0xF 7) (fun t => lit t.fb = [] && t.reg 0xF = 7 && t.pc = 0x202) := by
  decide +kernel
theorem test_drw_wraps_both_ways :
    runs 0xD122 { poke 0x300 [0xC0, 0xC0] (regs12 63 31 start) with i := 0x300 }
      (fun t => lit t.fb = [(0, 0), (63, 0), (0, 31), (63, 31)] && t.reg 0xF = 0) := by decide +kernel
theorem test_drw_collides :
    runs 0xD121 { poke 0x300 [0xC0] start with i := 0x300, fb := start.fb.setPixel 1 0 true }
      (fun t => lit t.fb = [(0, 0)] && t.reg 0xF = 1) := by decide +kernel

/-! ### Control transfer and skips (E7, 2.3) -/

theorem test_ret : runs 0x00EE { start with pc := 0x300, stack := [0x111, 0x202] }
    (fun t => t.pc = 0x202 && t.stack = [0x111]) := by decide +kernel
theorem test_ret_underflow : runs 0x00EE start (fun t => t.result = .halted (some .stackUnderflow) && t.pc = 0x200) := by
  decide +kernel
theorem test_jp : runs 0x1FFF start (fun t => t.pc = 0xFFF) := by decide +kernel
theorem test_call : runs 0x2300 { start with stack := List.replicate 15 0x111 }
    (fun t => t.pc = 0x300 && t.stack = List.replicate 15 0x111 ++ [0x202]) := by decide +kernel
theorem test_call_overflow : runs 0x2300 { start with stack := List.replicate 16 0x111 }
    (fun t => t.result = .halted (some .stackOverflow) && t.pc = 0x200 && t.stack = List.replicate 16 0x111) := by
  decide +kernel
theorem test_jpV0 : runs 0xBFFF (start.setReg 0 1) (fun t => t.pc = 0x1000) := by decide +kernel
theorem test_se_imm : runs 0x332A (start.setReg 3 0x2A) (fun t => t.pc = 0x204) &&
    runs 0x332A (start.setReg 3 0x2B) (fun t => t.pc = 0x202) := by decide +kernel
theorem test_sne_imm : runs 0x432A (start.setReg 3 0x2A) (fun t => t.pc = 0x202) := by decide +kernel
theorem test_se_reg : runs 0x5120 (regs12 7 7 start) (fun t => t.pc = 0x204) := by decide +kernel
theorem test_sne_reg : runs 0x9120 (regs12 7 7 start) (fun t => t.pc = 0x202) &&
    runs 0x9120 (regs12 7 8 start) (fun t => t.pc = 0x204) := by decide +kernel

/-! ### Arithmetic and logic (E3, E4, E5, 2.4) -/

theorem test_ld_imm : runs 0x6A42 start (fun t => t.reg 0xA = 0x42 && t.pc = 0x202) := by decide +kernel
theorem test_add_imm_no_flag : runs 0x7203 ((start.setReg 2 0xFE).setReg 0xF 7)
    (fun t => t.reg 2 = 1 && t.reg 0xF = 7) := by decide +kernel
theorem test_ld_reg : runs 0x8120 (regs12 1 0x5A start) (fun t => t.reg 1 = 0x5A && t.reg 2 = 0x5A) := by decide +kernel
theorem test_or : runs 0x8121 ((regs12 0x0F 0xF0 start).setReg 0xF 7) (fun t => t.reg 1 = 0xFF && t.reg 0xF = 7) := by
  decide +kernel
theorem test_or_resets_vf : runs 0x8121
    ((regs12 0x0F 0xF0 (withCfg (fun c => { c with logicResetsVf := true }) start)).setReg 0xF 7)
    (fun t => t.reg 1 = 0xFF && t.reg 0xF = 0) := by decide +kernel
theorem test_and : runs 0x8122 (regs12 0x3C 0x0F start) (fun t => t.reg 1 = 0x0C) := by decide +kernel
theorem test_xor_self : runs 0x8113 (start.setReg 1 0x5A) (fun t => t.reg 1 = 0) := by decide +kernel
theorem test_add_carry : runs 0x8124 (regs12 0xFF 1 start) (fun t => t.reg 1 = 0 && t.reg 0xF = 1) &&
    runs 0x81F4 ((start.setReg 1 0x10).setReg 0xF 0xF5) (fun t => t.reg 1 = 5 && t.reg 0xF = 1) := by decide +kernel
theorem test_add_into_vf : runs 0x8F14 ((start.setReg 1 1).setReg 0xF 0xFF) (fun t => t.reg 0xF = 0) &&
    runs 0x8F14 (((withCfg (fun c => { c with aluVfOrder := .flagLast }) start).setReg 1 1).setReg 0xF 0xFF)
      (fun t => t.reg 0xF = 1) := by decide +kernel
theorem test_sub_borrow : runs 0x8125 (regs12 5 0xA start) (fun t => t.reg 1 = 0xFB && t.reg 0xF = 0) := by
  decide +kernel
theorem test_sub_equal : runs 0x8125 (regs12 7 7 start) (fun t => t.reg 1 = 0 && t.reg 0xF = 1) := by decide +kernel
theorem test_subn : runs 0x8127 (regs12 5 0xA start) (fun t => t.reg 1 = 5 && t.reg 0xF = 1) &&
    runs 0x8127 (regs12 1 0 start) (fun t => t.reg 1 = 0xFF && t.reg 0xF = 0) := by decide +kernel
theorem test_shr : runs 0x8126 (regs12 0x81 4 start) (fun t => t.reg 1 = 0x40 && t.reg 0xF = 1) &&
    runs 0x8126 (regs12 0x81 4 (withCfg (fun c => { c with shiftSource := .y }) start))
      (fun t => t.reg 1 = 2 && t.reg 0xF = 0) := by decide +kernel
theorem test_shr_of_vf : runs 0x8F06 (start.setReg 0xF 3) (fun t => t.reg 0xF = 1) := by decide +kernel
theorem test_shl : runs 0x810E (start.setReg 1 0x80) (fun t => t.reg 1 = 0 && t.reg 0xF = 1) := by decide +kernel
theorem test_shl_of_vf : runs 0x8F0E (start.setReg 0xF 0x81) (fun t => t.reg 0xF = 2) := by decide +kernel
theorem test_rnd : runs 0xC30F { start with pending := [.step { quietInput with rnd := 0xB7 }] }
    (fun t => t.reg 3 = 7) := by decide +kernel

/-! ### Index, BCD, block transfers (2.5) -/

theorem test_ld_i : runs 0xA2F0 start (fun t => t.i = 0x2F0) := by decide +kernel
theorem test_add_i : runs 0xF11E { start.setReg 1 1 with i := 0x0FFF } (fun t => t.i = 0x1000 && t.reg 0xF = 0) &&
    runs 0xF11E { start.setReg 1 1 with i := 0xFFFF } (fun t => t.i = 0) := by decide +kernel
theorem test_ld_f : runs 0xF729 (start.setReg 7 0x0F) (fun t => t.i = 0x09B) &&
    runs 0xF729 (start.setReg 7 0x1A) (fun t => t.i = 0x082) := by decide +kernel
theorem test_ld_f_wide : runs 0xF729 ((withCfg (fun c => { c with wideIndexPolicy := .halt }) start).setReg 7 0x1A)
    (fun t => t.reason = some (.operandOutOfRange 0x1A) && t.i = 0) := by decide +kernel
theorem test_bcd : runs 0xF333 { start.setReg 3 0x9C with i := 0x1300 }
    (fun t => [0x300, 0x301, 0x302].map t.byteAt = [1, 5, 6] && t.i = 0x1300) := by decide +kernel
theorem test_bcd_past_memory : runs 0xF333 { start.setReg 3 0x07 with i := 0xFFE }
    (fun t => t.reason = some (.outOfBounds 0x1000) && t.byteAt 0xFFF = 0) := by decide +kernel
theorem test_dump_into_font : runs 0xF155 { (start.setReg 0 1).setReg 1 2 with i := 0x04F }
    (fun t => t.reason = some (.protectedWrite 0x050) && t.byteAt 0x04F = 0) &&
    runs 0xF155 { ((withCfg (fun c => { c with fontWritePolicy := .ignore }) start).setReg 0 1).setReg 1 2 with i := 0x04F }
      (fun t => t.run = .running && t.byteAt 0x04F = 1 && t.byteAt 0x050 = 0xF0) := by decide +kernel
theorem test_dump : runs 0xF255 { withCfg (fun c => { c with ldstIncrementI := true }) (regs12 0x22 0x33 (start.setReg 0 0x11)) with i := 0x400 }
    (fun t => [0x400, 0x401, 0x402, 0x403].map t.byteAt = [0x11, 0x22, 0x33, 0] && t.i = 0x403) := by decide +kernel
theorem test_load_block_font : runs 0xF465 { start with i := 0x050 }
    (fun t => [0, 1, 2, 3, 4, 5].map t.reg = [0xF0, 0x90, 0x90, 0x90, 0xF0, 0] && t.i = 0x050) := by decide +kernel
theorem test_load_block_past_memory : runs 0xFF65 { start with i := 0xFF1 }
    (fun t => t.reason = some (.outOfBounds 0x1000)) := by decide +kernel

/-! ### Keypad, timers, the step, the port (2.2, 2.7, 2.8, E2, E8) -/

/-- Key 5 down. -/
def key5 : StepInput := { quietInput with keys := quietInput.keys.set 5 true }

theorem test_skp : runs 0xE29E { start.setReg 2 0x15 with pending := [.step key5] } (fun t => t.pc = 0x204) &&
    runs 0xE29E (start.setReg 2 5) (fun t => t.pc = 0x202) := by decide +kernel
theorem test_sknp : runs 0xE2A1 { start.setReg 2 5 with pending := [.step key5] } (fun t => t.pc = 0x202) &&
    runs 0xE2A1 (start.setReg 2 5) (fun t => t.pc = 0x204) := by decide +kernel
theorem test_ld_vx_dt : runs 0xF107 { start with dt := 0x3C } (fun t => t.reg 1 = 0x3C) := by decide +kernel
theorem test_key_wait_none : runs 0xF30A start (fun t => t.result = .awaitingKey && t.pc = 0x200) := by decide +kernel
theorem test_key_wait_some : runs 0xF30A
    { start with awaiting := true, pending := [.step { quietInput with lastKey := some 7 }] }
    (fun t => t.reg 3 = 7 && t.pc = 0x202 && t.result = .ok) := by decide +kernel
theorem test_ld_dt : runs 0xF115 (start.setReg 1 0x3C) (fun t => t.dt = 0x3C && t.st = 0) := by decide +kernel
theorem test_ld_st : runs 0xF118 (start.setReg 1 5) (fun t => t.st = 5 && soundActive t) := by decide +kernel
theorem test_tick : steps { start with dt := 2, st := 0, run := .halted, pending := [.tick] }
    (fun t => t.dt = 1 && t.st = 0 && t.pending = []) := by decide +kernel
theorem test_fetch_last_byte : steps { start with pc := 0xFFF }
    (fun t => t.reason = some (.outOfBounds 0x1000) && t.pc = 0xFFF) := by decide +kernel
theorem test_fetch_masks_pc : steps { poke 0xFFE [0x60, 0x01] start with pc := 0xFFFE }
    (fun t => t.reg 0 = 1 && t.pc = 0) := by decide +kernel
theorem test_fetch_odd_pc : steps { poke 0x201 [0x63, 0x04] start with pc := 0x201 }
    (fun t => t.reg 3 = 4 && t.pc = 0x203) := by decide +kernel
theorem test_unknown_halts : runs 0xFFFF start
    (fun t => t.result = .halted (some (.unknownInstruction 0xFFFF)) && t.pc = 0x200) := by decide +kernel
theorem test_load : (match boot Config.default [0x12, 0x00] with
    | .next t => decide (t.byteAt 0x200 = 0x12 ∧ t.byteAt 0x201 = 0 ∧ t.progEnd = 0x202 ∧ t.mem = [(0x200, 0x12)])
    | _ => false) = true := by decide +kernel
theorem test_load_too_large : State.reset.load (List.replicate 0xE01 0x12) = .fault .loadTooLarge := by
  rw [State.load, if_neg]; rw [show State.reset.cfg = Config.default from rfl, show Config.default.imageFits (List.replicate 0xE01 0x12) = false by simp only [Config.imageFits, List.length_replicate]; decide]; decide
theorem test_reset_memory_is_canonical : Memory.wf State.reset.cfg State.reset.mem = true := rfl
theorem test_fetch_word_runs_first :
    State.reset.withFetchWord 16 0x6A42 |> step |> fun o =>
      (match o with | .next t => decide (t.reg 0xA = 0x42) | _ => false) = true := by decide +kernel

/-! ### Witnesses: for every obligation with hypotheses, a state and operands that meet them -/

/-- The state after the step of `w` on `s`. -/
def after (w : Nat) (s : State) : State :=
  match step (s.withFetchWord 16 w) with
  | .next t => t
  | _ => s

/-- The answer of an instruction, as a state. -/
def execd (i : Instr) (s : State) : State :=
  match exec i s with
  | .next t => t
  | _ => s

/-- A running block, its image `12 08` loaded, a call under way, some bytes written. -/
def running : State := { poke 0x208 [0x12, 0x08] start with pc := 0x208, stack := [0x202], progEnd := 0x20A }

theorem witness_EncodeOfDecodeIsTheWord : decodeWord 0x8AB6 = .instr (.shr 0xA 0xB) := by decide
theorem witness_DecodeFollowsTheTableRows :
    decodeWord 0x9120 = .instr (.sneReg 1 2) ∧ 0x9120 &&& (Instr.sneReg 0xF 0xF).row.mask = (Instr.sneReg 0xF 0xF).row.value := by
  decide
/-- One word for each clause of `UnknownWord`, and words beside each clause that are instructions. -/
theorem witness_UnknownWordsExactly :
    (UnknownWord 0x0FFF ∧ UnknownWord 0x5001 ∧ UnknownWord 0x900F ∧ UnknownWord 0x8008 ∧ UnknownWord 0x800F ∧
      UnknownWord 0xE09D ∧ UnknownWord 0xF066) ∧
    ¬ UnknownWord 0x00E0 ∧ ¬ UnknownWord 0x1000 ∧ ¬ UnknownWord 0x5000 ∧ ¬ UnknownWord 0x8007 ∧ ¬ UnknownWord 0x800E ∧
      ¬ UnknownWord 0xE09E ∧ ¬ UnknownWord 0xF065 := by
  simp [UnknownWord]

/-- A queued step, and a step with a free input (nothing queued). -/
theorem witness_StepRunsTheDecodedInstruction :
    let s := start.withFetchWord 16 0x6A42
    Stepping s quietInput { s with pending := [] } ∧ WordAtPc s 0x6A42 ∧ decodeWord 0x6A42 = .instr (.ldImm 0xA 0x42) :=
  ⟨⟨rfl, .inl ⟨[], rfl, rfl⟩⟩, by unfold WordAtPc; decide +kernel, by decide⟩
theorem witness_Stepping_free :
    let s := State.reset.withFetchWord 16 0xF30A
    Stepping s (Config.freeInput 0) { s with input := Config.freeInput 0, draws := 1 } ∧ WordAtPc s 0xF30A :=
  ⟨⟨rfl, .inr ⟨rfl, rfl, rfl⟩⟩, by unfold WordAtPc; decide +kernel⟩
theorem witness_FetchAtLastByteHalts :
    let s := { start with pc := 0xFFFF }
    Stepping s quietInput { s with pending := [] } ∧ s.pc.toNat % 4096 = 0xFFF :=
  ⟨⟨rfl, .inl ⟨[], rfl, rfl⟩⟩, by decide⟩
theorem witness_UnknownWordHalts :
    let s := start.withFetchWord 16 0xFFFF
    Stepping s quietInput { s with pending := [] } ∧ WordAtPc s 0xFFFF ∧ decodeWord 0xFFFF = .unknown 0xFFFF :=
  ⟨⟨rfl, .inl ⟨[], rfl, rfl⟩⟩, by unfold WordAtPc; decide +kernel, by decide⟩
/-- A halted block, and the host about to step, with an input queued and with none, and about to tick. -/
theorem witness_HaltedIsTerminal :
    let h := takeHalt .stackUnderflow running
    (after 0xFFFF start).run = .halted ∧
    (h.run = .halted ∧ h.pending = .step quietInput :: []) ∧
    (({ h with pending := [] } : State).run = .halted ∧ ({ h with pending := [] } : State).pending = []) ∧
    ({ h with pending := [.tick] } : State).run = .halted ∧ ({ h with pending := [.tick] } : State).pending = .tick :: [] :=
  ⟨by decide +kernel, ⟨rfl, rfl⟩, ⟨rfl, rfl⟩, rfl, rfl⟩
/-- The tick at both ends of a timer; a step that sets DT, one of a halted block, and one that halts; an instruction. -/
theorem witness_OnlyTicksCountDown :
    ({ start with dt := 0, st := 0xFF, pending := [.tick, .tick] } : State).pending = .tick :: [.tick] ∧
    ((∀ ops, start.pending ≠ .tick :: ops) ∧ (∃ t, step (start.withFetchWord 16 0xF115) = .next t) ∧
      (∃ t, step (takeHalt .stackUnderflow start) = .next t) ∧ ∃ t, step (start.withFetchWord 16 0xFFFF) = .next t) ∧
    (∃ t, exec (.ldDtVx 1) start = .next t) ∧ ∃ t, exec .cls start = .next t :=
  ⟨rfl, ⟨(fun _ h => by cases h), ⟨_, rfl⟩, ⟨_, rfl⟩, _, rfl⟩, ⟨_, rfl⟩, _, rfl⟩
/-- The key wait with no key and with a key, and another instruction. -/
theorem witness_AwaitingExactlyAfterKeylessWait :
    let s := start.withFetchWord 16 0xF30A
    let k := { quietInput with lastKey := some 0xF }
    let s' := { s with pending := [.step k] }
    (Stepping s quietInput { s with pending := [] } ∧ step s = .next (after 0xF30A start) ∧
      (after 0xF30A start).run = .running ∧ WordAtPc s (encode (.ldVxK 3))) ∧
    Stepping s' k { s' with input := k, pending := [] } ∧ ∃ t, step s' = .next t ∧ t.run = .running :=
  ⟨⟨⟨rfl, .inl ⟨[], rfl, rfl⟩⟩, rfl, by decide +kernel, by unfold WordAtPc; decide +kernel⟩,
    ⟨rfl, .inl ⟨[], rfl, rfl⟩⟩, _, rfl, by decide +kernel⟩
/-- An instruction that halts, and the three ways a step does: its fetch, an Unknown word, its instruction. -/
theorem witness_HaltIsPrecise :
    let f := { start with pc := 0xFFF }
    let w := start.withFetchWord 16 0xFFFF
    let r := start.withFetchWord 16 0x00EE
    (∃ t, exec .ret start = .next t ∧ start.run = .running ∧ t.run = .halted) ∧
    (Stepping f quietInput { f with pending := [] } ∧ ∃ t, step f = .next t ∧ t.run = .halted) ∧
    (Stepping w quietInput { w with pending := [] } ∧ ∃ t, step w = .next t ∧ t.run = .halted) ∧
    Stepping r quietInput { r with pending := [] } ∧ ∃ t, step r = .next t ∧ t.run = .halted :=
  ⟨⟨_, rfl, rfl, rfl⟩, ⟨⟨rfl, .inl ⟨[], rfl, rfl⟩⟩, _, rfl, by decide +kernel⟩,
    ⟨⟨rfl, .inl ⟨[], rfl, rfl⟩⟩, _, rfl, by decide +kernel⟩, ⟨rfl, .inl ⟨[], rfl, rfl⟩⟩, _, rfl, by decide +kernel⟩

/-- The policies under which a wide index or a font write halts. -/
def strict : State := withCfg (fun c => { c with wideIndexPolicy := .halt, fontWritePolicy := .halt }) start

/-- A halt of every instruction of R261's table, at the first value that halts. -/
theorem witness_HaltsOnlyAsTabled :
    (execd .ret start).reason = some .stackUnderflow ∧
    (execd (.call 0x300) { start with stack := List.replicate 16 0 }).reason = some .stackOverflow ∧
    (execd (.drw 1 2 1) { start with i := 0xFFF }).run = .running ∧
    (execd (.drw 1 2 2) { start with i := 0xFFF }).reason = some (.outOfBounds 0x1000) ∧
    (execd (.ldBVx 1) { start with i := 0xFFE }).reason = some (.outOfBounds 0x1000) ∧
    (execd (.ldBVx 1) { strict with i := 0x09F }).reason = some (.protectedWrite 0x09F) ∧
    (execd (.ldMemVx 0) { strict with i := 0x04F }).run = .running ∧
    (execd (.ldMemVx 1) { strict with i := 0x04F }).reason = some (.protectedWrite 0x050) ∧
    (execd (.ldMemVx 1) { start with i := 0xFFF }).reason = some (.outOfBounds 0x1000) ∧
    (execd (.ldVxMem 1) { start with i := 0xFFF }).reason = some (.outOfBounds 0x1000) ∧
    (execd (.skp 1) (strict.setReg 1 0x10)).reason = some (.operandOutOfRange 0x10) ∧
    (execd (.sknp 1) (strict.setReg 1 0x10)).reason = some (.operandOutOfRange 0x10) ∧
    (execd (.ldFVx 1) (strict.setReg 1 0x10)).reason = some (.operandOutOfRange 0x10) ∧
    (execd (.ldFVx 1) (strict.setReg 1 0x0F)).run = .running := by decide +kernel
theorem witness_PlainInstructionsAdvanceByTwo :
    redirectsPc (.addReg 1 2) = false ∧ redirectsPc (.ldVxK 3) = false ∧ start.run = .running ∧
    (∃ t, exec (.addReg 1 2) start = .next t ∧ t.run = .running) ∧
    (∃ t, exec (.ldVxK 3) start = .next t ∧ t.run = .running) ∧ start.input.lastKey = none :=
  ⟨rfl, rfl, rfl, ⟨_, rfl, rfl⟩, ⟨_, rfl, rfl⟩, rfl⟩
/-- The default configuration, and one with every bound of R8 met with equality. -/
theorem witness_ConstructLeavesResetValues : Config.default.admitted = true ∧
    ({ Config.default with fontBase := 4015, loadAddr := 4095, stackDepth := 1 } : Config).admitted = true := by decide
theorem witness_ConstructRefusesOtherConfigurations :
    ¬ ((4016 : Nat) + 80 ≤ 4095 ∧ 4095 < 4096 ∧ 1 ≤ 16) ∧ ¬ ((0x50 : Nat) + 80 ≤ 4096 ∧ 4096 < 4096 ∧ 1 ≤ 16) ∧
    ¬ ((0x50 : Nat) + 80 ≤ 0x200 ∧ 0x200 < 4096 ∧ 1 ≤ 0) := by decide
theorem witness_LoadRoundTrip : ∃ s, boot Config.default [0x12, 0x00] = .next s ∧ 1 < [0x12, 0x00].length :=
  ⟨_, rfl, by decide⟩
theorem witness_LoadSucceedsExactlyWhenItFits :
    start.cfg.loadAddr + (List.replicate 0xE00 (0 : Byte)).length ≤ 4096 ∧
    4096 < start.cfg.loadAddr + (List.replicate 0xE01 (0 : Byte)).length := by
  simp only [List.length_replicate]; decide
theorem witness_InvariantHoldsAtReset : State.construct Config.default = .next State.reset := rfl

theorem running_keeps_the_invariant : BlockInv running where
  admitted := by decide
  memory := by decide +kernel
  font := fun _ => by decide +kernel
  stack := by decide
  reason := by decide
  awaiting := by decide
  progEnd := by decide
theorem witness_EveryOperationKeepsTheInvariant : BlockInv running ∧ ∃ t, step running = .next t :=
  ⟨running_keeps_the_invariant, _, rfl⟩
theorem witness_ReachableStatesMeetTheInvariant :
    Reach Config.default State.reset ∧ (∃ s, boot Config.default [0x12, 0x00] = .next s ∧ Reach Config.default s) ∧
    ∃ t, step { State.reset with pending := [.tick] } = .next t ∧ Reach Config.default t :=
  ⟨.constructed rfl, ⟨_, rfl, .loaded (image := [0x12, 0x00]) rfl⟩, _, rfl, .stepped (.planned [.tick] (.constructed rfl)) rfl⟩
/-- The policies Halt and Ignore, a store that meets the last byte of the font. -/
theorem witness_FontIsNeverOverwritten :
    let s := withCfg (fun c => { c with fontWritePolicy := .ignore }) { start with i := 0x09F }
    start.cfg.fontWritePolicy ≠ .write ∧ s.cfg.fontWritePolicy ≠ .write ∧ (∃ t, exec (.ldMemVx 3) s = .next t) ∧ 79 < 80 :=
  ⟨by decide, by decide, ⟨_, rfl⟩, by decide⟩
theorem witness_ReasonIsWrittenOnce :
    let s := { running with pending := [.tick] }
    let h := takeHalt .stackUnderflow s
    (BlockInv s ∧ ∃ t, step s = .next t ∧ t.run = .running) ∧
    BlockInv h ∧ h.run = .halted ∧ ∃ t, step h = .next t ∧ t.run = .halted :=
  have i := running_keeps_the_invariant
  ⟨⟨⟨i.1, i.2, i.3, i.4, i.5, i.6, i.7⟩, _, rfl, rfl⟩,
    ⟨i.1, i.2, i.3, i.4, by decide, by decide, i.7⟩, rfl, _, rfl, rfl⟩
theorem witness_OnlyTheNamedWritersWrite :
    (∃ t, exec (.drw 1 2 5) start = .next t ∧ t.run = .running) ∧ ∃ t, exec .ret start = .next t ∧ t.run = .halted :=
  ⟨⟨_, rfl, by decide +kernel⟩, _, rfl, rfl⟩
theorem witness_NoInstructionReadsStOrProgEnd : ∃ t, exec (.ldStVx 1) start = .next t := ⟨_, rfl⟩
theorem witness_OnlyFourInstructionsReadTheInput :
    readsInput (.ldVxDt 1) = false ∧ ∃ t, exec (.ldVxDt 1) start = .next t := ⟨rfl, _, rfl⟩
theorem witness_StackHoldsItsDepth : start.stack = [] ∧
    (List.replicate 16 (0x202 : Word)).length ≤ start.cfg.stackDepth ∧
    start.cfg.stackDepth < (List.replicate 17 (0x202 : Word)).length := by decide
theorem witness_PopReturnsTheLastPushed : start.stack = [] ∧ ∃ t, push 0x202 start = .ok t := ⟨rfl, _, rfl⟩
theorem witness_RetGoesToThePoppedAddress : running.stack = [] ++ [0x202] ∧ start.stack = [] := ⟨rfl, rfl⟩
theorem witness_CallPushesAndJumps :
    ({ start with stack := List.replicate 15 0 } : State).stack.length < start.cfg.stackDepth ∧
    ({ start with stack := List.replicate 16 0 } : State).stack.length = start.cfg.stackDepth := by decide
theorem witness_CallThenRetResumesAfterTheCall :
    ({ start with stack := List.replicate 15 0 } : State).stack.length < start.cfg.stackDepth := by decide
/-- The last key below the bound, and a value above it under LowNibble. -/
theorem witness_KeySkipsTestTheKey :
    ((strict.setReg 2 0x0F).reg 2).toNat ≤ 0x0F ∧ (0xF : Nibble).toNat = ((strict.setReg 2 0x0F).reg 2).toNat % 16 ∧
    start.cfg.wideIndexPolicy = .lowNibble ∧ (0x5 : Nibble).toNat = ((start.setReg 2 0x15).reg 2).toNat % 16 := by decide
theorem witness_WideIndexHaltsUnderPolicyHalt :
    strict.cfg.wideIndexPolicy = .halt ∧ ((strict.setReg 1 0x10).reg 1).toNat > 0x0F ∧
    Instr.skp 1 ∈ [Instr.skp 1, .sknp 1, .ldFVx 1] ∧ Instr.ldFVx 1 ∈ [Instr.skp 1, .sknp 1, .ldFVx 1] := by decide
theorem witness_ShiftsDropOneBitIntoVf :
    start.cfg.shiftSource = .x ∧ (withCfg (fun c => { c with shiftSource := .y }) start).cfg.shiftSource = .y := by decide
theorem witness_LoadGlyphAddress :
    ((strict.setReg 7 0x0F).reg 7).toNat ≤ 0x0F ∧ start.cfg.wideIndexPolicy = .lowNibble ∧
    start.cfg.admitted = true ∧ strict.cfg.admitted = true := by decide
theorem witness_BcdStoresDecimalDigits :
    Memory.wf start.cfg start.mem = true ∧ ∀ k, k < 3 → ¬ badWrite start.cfg (ea 0xFFD k) := by
  unfold badWrite; decide
theorem witness_DumpStoresTheRegisters :
    Memory.wf start.cfg start.mem = true ∧ ∀ k, k ≤ (0xF : Nibble).toNat → ¬ badWrite start.cfg (ea 0xFF0 k) := by
  unfold badWrite; decide
/-- FX33 across the end of memory, FX55 into the font. -/
theorem witness_StoresHaltAtTheFirstBadAddress :
    (2 < 3 ∧ (∀ j, j < 2 → ¬ badWrite start.cfg (ea 0xFFE j)) ∧ badWrite start.cfg (ea 0xFFE 2)) ∧
    (1 < (1 : Nibble).toNat + 1 ∧ (∀ j, j < 1 → ¬ badWrite start.cfg (ea 0x04F j)) ∧ badWrite start.cfg (ea 0x04F 1)) := by
  unfold badWrite; decide
theorem witness_LoadBlockLoadsTheRegisters : ea 0xFF0 (0xF : Nibble).toNat < 4096 := by decide
theorem witness_ReadsPastMemoryHalt : 4096 < ea 0xFFE (3 : Nibble).toNat ∧ 4096 < ea 0xFF1 ((0xF : Nibble).toNat + 1) := by
  decide
/-- Outside the font, and inside it when the font is RAM. -/
theorem witness_DumpThenLoadRestores :
    let s := { start with i := 0x400 }
    let r := withCfg (fun c => { c with fontWritePolicy := .write }) { start with i := 0x050 }
    (Memory.wf s.cfg s.mem = true ∧ ∀ k, k ≤ (0xF : Nibble).toNat → ea s.i k < 4096 ∧ inFont s.cfg (ea s.i k) = false) ∧
    (∃ t, exec (.ldMemVx 0xF) s = .next t) ∧
    (Memory.wf r.cfg r.mem = true ∧ r.cfg.fontWritePolicy = .write ∧ ∀ k, k ≤ (0xF : Nibble).toNat → ea r.i k < 4096) ∧
    ∃ t, exec (.ldMemVx 0xF) r = .next t :=
  ⟨by decide, ⟨_, rfl⟩, by decide, ⟨_, rfl⟩⟩
theorem witness_StoredBytesAreFetched :
    Memory.wf start.cfg start.mem = true ∧
    (∀ j, j ≤ (1 : Nibble).toNat → ¬ badWrite start.cfg (ea 0x208 j) ∧ inFont start.cfg (ea 0x208 j) = false) ∧
    (0 : Nibble).toNat < (1 : Nibble).toNat ∧ mask12 0x208 = ea 0x208 (0 : Nibble).toNat := by
  unfold badWrite; decide
/-- The last block that lies in memory; a covered cell that is lit, and a drawing that covers nothing. -/
theorem witness_DrawXorsAndReportsCollision :
    let s := { start with i := 0x050, fb := start.fb.setPixel 3 0 true }
    ea 0xFF1 (0xF : Nibble).toNat = 4096 ∧ ea s.i (1 : Nibble).toNat ≤ 4096 ∧
    (∃ px py, Covered s (s.reg 1) (s.reg 2) (1 : Nibble).toNat px py ∧ s.fb.pixel px py = true) ∧
    ¬ (∃ px py, Covered s (s.reg 1) (s.reg 2) (0 : Nibble).toNat px py ∧ s.fb.pixel px py = true) :=
  ⟨by decide, by decide, ⟨3, 0, ⟨0, 3, by decide, by decide, by decide +kernel, by decide, by decide⟩, by decide +kernel⟩,
    fun ⟨_, _, ⟨_, _, h, _⟩, _⟩ => absurd h (Nat.not_lt_zero _)⟩
theorem witness_DrawingTwiceRestoresTheFrame :
    ea 0x050 (5 : Nibble).toNat ≤ 4096 ∧ (1 : Nibble) ≠ 0xF ∧ (2 : Nibble) ≠ 0xF := by decide
theorem witness_KeyWaitLoadsOrHolds :
    ({ start with input := { quietInput with lastKey := some 0xF } } : State).input.lastKey = some 0xF ∧
    start.input.lastKey = none := by decide

end Sys2Proof.Tests
end

section
/-! The block invariant (spec R8, R29, R34, R54) and the precise halt (R13, R265). What an instruction can do is said
once, in `exec_cases`: it halts, or it completes and keeps what `Completes` lists. -/

namespace Sys2Proof.Machine

/-! ### What a completed instruction keeps -/

/-- What an instruction that completes keeps of the state it began in, as far as the block invariant speaks of it. -/
structure Completes (s t : State) : Prop where
  cfg : t.cfg = s.cfg
  run : t.run = s.run
  reason : t.reason = s.reason
  progEnd : t.progEnd = s.progEnd
  memory : Memory.wf s.cfg s.mem = true → Memory.wf t.cfg t.mem = true
  font : s.cfg.fontWritePolicy ≠ .write → ∀ a, inFont s.cfg a = true → t.byteAt a = s.byteAt a
  stack : s.stack.length ≤ s.cfg.stackDepth → t.stack.length ≤ s.cfg.stackDepth

/-- Memory and the stack are left alone by most instructions. -/
theorem Completes.of_same {s t : State}
    (h : t.cfg = s.cfg ∧ t.run = s.run ∧ t.reason = s.reason ∧ t.progEnd = s.progEnd ∧ t.mem = s.mem ∧
      t.stack = s.stack) : Completes s t := by
  obtain ⟨hcfg, hrun, hreason, hend, hmem, hstack⟩ := h
  exact ⟨hcfg, hrun, hreason, hend, fun hw => by rwa [hcfg, hmem], fun _ a _ => byteAt_congr hmem hcfg a,
    fun hl => by rwa [hstack]⟩

theorem Completes.trans {s t u : State} (h : Completes s t) (h' : Completes t u) : Completes s u where
  cfg := h'.cfg.trans h.cfg
  run := h'.run.trans h.run
  reason := h'.reason.trans h.reason
  progEnd := h'.progEnd.trans h.progEnd
  memory := h'.memory ∘ h.memory
  font hp a ha := (h'.font (by rwa [h.cfg]) a (by rwa [h.cfg])).trans (h.font hp a ha)
  stack hl := by simpa only [h.cfg] using h'.stack (by simpa only [h.cfg] using h.stack hl)

/-- A block write keeps the canonical memory and the font table (R54, R55). -/
theorem writeBlock_completes {bs : List Byte} {k : Nat} {s t : State} (h : writeBlock k bs s = .ok t) :
    Completes s t := by
  have hmem := writeBlock_wf bs k s t h
  have hfont := writeBlock_font bs k s t
  obtain ⟨m, rfl⟩ := writeBlock_fields bs k s t h
  exact ⟨rfl, rfl, rfl, rfl, hmem, fun hp a ha => hfont a h hp ha, id⟩

/-- A push keeps the stack within its depth (R29, R30). -/
theorem push_completes {a : Word} {s t : State} (h : push a s = .ok t) : Completes s t := by
  by_cases hroom : s.stack.length < s.cfg.stackDepth
  · rw [push_ok hroom] at h
    cases h
    exact ⟨rfl, rfl, rfl, rfl, id, fun _ _ _ => rfl, fun _ => by simpa using hroom⟩
  · rw [push_error (Nat.le_of_not_lt hroom)] at h
    cases h

/-- A pop leaves fewer entries (R31). -/
theorem pop_completes {a : Word} {s t : State} (h : pop s = .ok (a, t)) : Completes s t := by
  obtain ⟨_, e⟩ | ⟨st, b, hs, e⟩ := pop_cases s <;> rw [e] at h <;> cases h
  refine ⟨rfl, rfl, rfl, rfl, id, fun _ _ _ => rfl, fun hl => ?_⟩
  rw [hs, List.length_append] at hl
  exact Nat.le_of_add_right_le hl

/-- The key wait writes a register, PC and the awaiting flag (R240). -/
theorem keyWait_completes (x : Nibble) (s : State) : Completes s (keyWait x s) := by
  unfold keyWait
  split <;> exact .of_same (by simp)

/-! ### What an instruction can do -/

/-- An instruction whose body may raise a halt either halts or completes, if its body's state is a completed one. -/
theorem orHalt_cases {s t : State} {body : Except HaltReason State} (hbody : ∀ u, body = .ok u → Completes s u)
    (h : orHalt s body = .next t) : (∃ r, t = takeHalt r s) ∨ Completes s t := by
  obtain hok | ⟨r, _, ht⟩ := orHalt_next h
  · exact .inr (hbody t hok)
  · exact .inl ⟨r, ht⟩

/-- Everything an instruction can do to what the block invariant speaks of: the precise halt of R265, or completion.
Only RET, CALL, FX33 and FX55 write the stack or memory; the last case is the instructions that cannot halt (R261). -/
theorem exec_cases {i : Instr} {s t : State} (h : exec i s = .next t) :
    (∃ r, t = takeHalt r s) ∨ Completes s t := by
  cases i with
  | ret =>
    refine orHalt_cases (fun u hu => ?_) h
    split at hu <;> cases hu
    exact (pop_completes ‹_›).trans (.of_same (by simp))
  | call nnn =>
    refine orHalt_cases (fun u hu => ?_) h
    split at hu <;> cases hu
    exact (push_completes ‹_›).trans (.of_same (by simp))
  | ldBVx | ldMemVx =>
    refine orHalt_cases (fun u hu => ?_) h
    split at hu <;> cases hu
    exact (writeBlock_completes ‹_›).trans (.of_same (by simp))
  | drw | skp | sknp | ldFVx | ldVxMem =>
    refine orHalt_cases (fun u hu => ?_) h
    split at hu <;> cases hu
    exact .of_same (by simp)
  | ldVxK x => cases h; exact .inr (keyWait_completes x s)
  | _ => cases h; exact .inr (.of_same (by simp))

/-- An instruction of a running block that halts leaves the state before it, the halt apart (R13, D21). -/
theorem exec_halts {i : Instr} {s t : State} (hs : s.run = .running) (h : exec i s = .next t)
    (ht : t.run = .halted) : ∃ r, t = takeHalt r s := by
  refine (exec_cases h).resolve_right fun hc => ?_
  rw [hc.run, hs] at ht
  cases ht

@[simp] theorem settleAwaiting_takeHalt (i : Instr) (r : HaltReason) (s : State) :
    settleAwaiting i (takeHalt r s) = takeHalt r s := by
  unfold settleAwaiting
  split <;> rfl

theorem settleAwaiting_awaiting (i : Instr) (s : State) :
    (settleAwaiting i s).awaiting = (isKeyWait i && s.awaiting) := by
  unfold settleAwaiting
  split <;> simp [*]

theorem Stepping.running {s u : State} {inp : StepInput} (h : Stepping s inp u) : u.run = .running := by
  obtain ⟨hr, ⟨_, _, rfl⟩ | ⟨_, _, rfl⟩⟩ := h <;> exact hr

/-- A step of a running block that halts leaves what its instruction sees, the halt apart (R105, R106, R265). -/
theorem step_halts {s u t : State} {inp : StepInput} (hu : Stepping s inp u) (h : step s = .next t)
    (ht : t.run = .halted) : ∃ r, t = takeHalt r u := by
  rw [step_of_stepping hu] at h
  cases hf : fetchInstr s with
  | error r =>
    rw [hf] at h
    cases h
    exact ⟨r, rfl⟩
  | ok i =>
    rw [hf] at h
    obtain ⟨v, hv, rfl⟩ := afterExec_next h
    obtain ⟨r, rfl⟩ := exec_halts hu.running hv (by simpa using ht)
    exact ⟨r, settleAwaiting_takeHalt i r u⟩

/-- Settles O12: an instruction halts by `takeHalt` of the state it began in, a step by `takeHalt` of the state with
the operation taken and the input sampled. -/
theorem haltIsPrecise : Obligations.HaltIsPrecise :=
  ⟨fun _ _ _ hs h ht => exec_halts hs h ht, fun _ _ _ _ hu h ht => step_halts hu h ht⟩

/-! ### The invariant, operation by operation -/

/-- The invariant does not speak of the registers, I, PC, the timers, the framebuffer, or the host's side. -/
theorem BlockInv.congr {s t : State} (hi : BlockInv s) (hcfg : t.cfg = s.cfg) (hmem : t.mem = s.mem)
    (hstack : t.stack = s.stack) (hrun : t.run = s.run) (hreason : t.reason = s.reason)
    (hawait : t.awaiting = s.awaiting) (hend : t.progEnd = s.progEnd) : BlockInv t where
  admitted := by rw [hcfg]; exact hi.admitted
  memory := by rw [hcfg, hmem]; exact hi.memory
  font hp k hk := by rw [byteAt_congr hmem hcfg, hcfg]; exact hi.font (by rwa [← hcfg]) k hk
  stack := by rw [hcfg, hstack]; exact hi.stack
  reason := by rw [hrun, hreason]; exact hi.reason
  awaiting := by rw [hrun, hawait]; exact hi.awaiting
  progEnd := by rw [hcfg, hend]; exact hi.progEnd

theorem BlockInv.after_tick {s : State} (hi : BlockInv s) : BlockInv (tick s) :=
  hi.congr rfl rfl rfl rfl rfl rfl rfl

theorem BlockInv.after_sample {s : State} (hi : BlockInv s) (inp : StepInput) : BlockInv (sample inp s) :=
  hi.congr rfl rfl rfl rfl rfl rfl rfl

theorem BlockInv.with_pending {s : State} (hi : BlockInv s) (ops : List HostOp) :
    BlockInv { s with pending := ops } :=
  hi.congr rfl rfl rfl rfl rfl rfl rfl

@[simp] theorem nextOp_cfg (s : State) : (nextOp s).2.cfg = s.cfg := by
  obtain ⟨ops, d, e⟩ := nextOp_state s
  rw [e]

@[simp] theorem nextOp_run (s : State) : (nextOp s).2.run = s.run := by
  obtain ⟨ops, d, e⟩ := nextOp_state s
  rw [e]

theorem BlockInv.after_nextOp {s : State} (hi : BlockInv s) : BlockInv (nextOp s).2 := by
  obtain ⟨ops, d, e⟩ := nextOp_state s
  rw [e]
  exact hi.congr rfl rfl rfl rfl rfl rfl rfl

/-- The halt records a reason and clears the wait (R34, R265). -/
theorem BlockInv.after_takeHalt {s : State} (hi : BlockInv s) (r : HaltReason) : BlockInv (takeHalt r s) where
  admitted := hi.admitted
  memory := hi.memory
  font := hi.font
  stack := hi.stack
  reason := by simp
  awaiting _ := rfl
  progEnd := hi.progEnd

theorem BlockInv.after_settleAwaiting {s : State} (hi : BlockInv s) (i : Instr) : BlockInv (settleAwaiting i s) where
  admitted := by simpa using hi.admitted
  memory := by simpa using hi.memory
  font := by simpa using hi.font
  stack := by simpa using hi.stack
  reason := by simpa using hi.reason
  awaiting hr := by
    rw [settleAwaiting_awaiting, hi.awaiting (by simpa using hr), Bool.and_false]
  progEnd := by simpa using hi.progEnd

theorem inFont_add (c : Config) {k : Nat} (hk : k < fontSize) : inFont c (c.fontBase + k) = true := by
  rw [inFont_iff]
  rw [fontSize_eq] at hk
  omega

/-- A running block keeps the invariant through an instruction that completes: it still runs, so no wait is excluded. -/
theorem BlockInv.after_completion {s t : State} (hi : BlockInv s) (hs : s.run = .running) (hc : Completes s t) :
    BlockInv t where
  admitted := by rw [hc.cfg]; exact hi.admitted
  memory := hc.memory hi.memory
  font hp k hk := by
    rw [hc.cfg] at hp ⊢
    rw [hc.font hp _ (inFont_add s.cfg hk)]
    exact hi.font hp k hk
  stack := by rw [hc.cfg]; exact hc.stack hi.stack
  reason := by rw [hc.run, hc.reason]; exact hi.reason
  awaiting hr := by rw [hc.run, hs] at hr; cases hr
  progEnd := by rw [hc.cfg, hc.progEnd]; exact hi.progEnd

theorem BlockInv.after_exec {i : Instr} {s t : State} (hi : BlockInv s) (hs : s.run = .running)
    (h : exec i s = .next t) : BlockInv t := by
  obtain ⟨r, rfl⟩ | hc := exec_cases h
  · exact hi.after_takeHalt r
  · exact hi.after_completion hs hc

/-- Every operation of the block keeps the invariant. -/
theorem BlockInv.after_step {s t : State} (hi : BlockInv s) (h : step s = .next t) : BlockInv t := by
  obtain ⟨_, rfl⟩ | ⟨inp, _, ⟨_, rfl⟩ | ⟨_, r, _, rfl⟩ | ⟨hs, i, u, _, hu, rfl⟩⟩ := step_cases h
  · exact hi.after_nextOp.after_tick
  · exact hi.after_nextOp
  · exact (hi.after_nextOp.after_sample inp).after_takeHalt r
  · exact ((hi.after_nextOp.after_sample inp).after_exec (by simpa using hs) hu).after_settleAwaiting i

/-- Settles O21, by the cases of one operation: a tick, a step in Halted, a halt of the fetch, an instruction. -/
theorem everyOperationKeepsTheInvariant : Obligations.EveryOperationKeepsTheInvariant :=
  fun _ _ hi h => hi.after_step h

/-! ### Construction and load -/

theorem admitted_iff (c : Config) :
    c.admitted = true ↔ c.fontBase + 80 ≤ c.loadAddr ∧ c.loadAddr < 4096 ∧ 1 ≤ c.stackDepth := by
  simp only [Config.admitted, Config.fontBelowLoad, Config.loadInMemory, Config.stackNonempty, Bool.and_eq_true,
    decide_eq_true_eq, and_assoc]
  rfl

theorem imageFits_iff (c : Config) (image : List Byte) :
    c.imageFits image = true ↔ c.loadAddr + image.length ≤ memSize := by
  simp [Config.imageFits]

/-- Construct answers the initial state of an admitted configuration and no other (R8, R290). -/
theorem construct_next {c : Config} {s : State} :
    State.construct c = .next s ↔ c.admitted = true ∧ s = State.initial c := by
  unfold State.construct
  split <;> simp [*, eq_comm]

/-- What a successful load answers (R64). -/
theorem load_next {image : List Byte} {s t : State} (h : s.load image = .next t) :
    s.cfg.loadAddr + image.length ≤ memSize ∧
      t = { s with
        mem := Memory.writeAll s.cfg s.cfg.loadAddr image s.mem
        progEnd := BitVec.ofNat 16 (s.cfg.loadAddr + image.length) } := by
  unfold State.load at h
  split at h
  next hfit => cases h; exact ⟨(imageFits_iff ..).mp hfit, rfl⟩
  next => cases h

/-- A successful boot is a construction and a load (R292). -/
theorem boot_next {c : Config} {image : List Byte} {s : State} (h : boot c image = .next s) :
    c.admitted = true ∧ (State.initial c).load image = .next s := by
  unfold boot at h
  split at h
  next e =>
    obtain ⟨hadm, rfl⟩ := construct_next.mp e
    exact ⟨hadm, h⟩
  all_goals cases h

/-- Settles O17: Construct answers by the admission rule of R8. -/
theorem constructRefusesOtherConfigurations : Obligations.ConstructRefusesOtherConfigurations :=
  ⟨fun c hc => if_neg (by rwa [admitted_iff]), construct_next.mpr ⟨by decide, rfl⟩⟩

theorem initial_byteAt_font (c : Config) {k : Nat} (hk : k < fontSize) :
    (State.initial c).byteAt (c.fontBase + k) = c.fontTable.toList.getD k 0 := by
  show resetByte c (c.fontBase + k) = _
  rw [resetByte, if_pos (inFont_add c hk), Nat.add_sub_cancel_left]

/-- An address in memory is its own 16-bit value. -/
theorem toNat_ofNat_of_le_memSize {a : Nat} (h : a ≤ memSize) : (BitVec.ofNat 16 a).toNat = a := by
  rw [memSize_eq] at h
  rw [BitVec.toNat_ofNat]
  omega

/-- The invariant holds of every constructed block (R290, R291). -/
theorem BlockInv.initial {c : Config} (hadm : c.admitted = true) : BlockInv (State.initial c) where
  admitted := hadm
  memory := Memory.wf_nil c
  font _ _ hk := initial_byteAt_font c hk
  stack := Nat.zero_le _
  reason := by simp [State.initial]
  awaiting _ := rfl
  progEnd := by
    obtain ⟨_, hlt, _⟩ := (admitted_iff c).mp hadm
    have hload : c.loadAddr ≤ memSize := hlt.le
    show c.loadAddr ≤ (BitVec.ofNat 16 c.loadAddr).toNat ∧ (BitVec.ofNat 16 c.loadAddr).toNat ≤ memSize
    rw [toNat_ofNat_of_le_memSize hload]
    exact ⟨le_rfl, hload⟩

/-- Settles O20: both are initial states of admitted configurations. -/
theorem invariantHoldsAtReset : Obligations.InvariantHoldsAtReset := by
  refine ⟨.initial (by decide), fun c s h => ?_⟩
  obtain ⟨hadm, rfl⟩ := construct_next.mp h
  exact .initial hadm

/-- A load keeps the invariant: the image lies in memory and above the font (R8, R64). -/
theorem BlockInv.after_load {image : List Byte} {s t : State} (hi : BlockInv s) (h : s.load image = .next t) :
    BlockInv t := by
  obtain ⟨hfit, rfl⟩ := load_next h
  have hbelow : ∀ k, k < fontSize → s.cfg.fontBase + k < s.cfg.loadAddr := by
    obtain ⟨hfont, _, _⟩ := (admitted_iff _).mp hi.admitted
    intro k hk
    rw [fontSize_eq] at hk
    omega
  exact {
    admitted := hi.admitted
    memory := Memory.wf_writeAll image hfit hi.memory
    font := fun hp k hk =>
      (Memory.read_writeAll_other image (.inl (hbelow k hk))).trans (hi.font hp k hk)
    stack := hi.stack
    reason := hi.reason
    awaiting := hi.awaiting
    progEnd := by
      rw [toNat_ofNat_of_le_memSize hfit]
      exact ⟨Nat.le_add_right _ _, hfit⟩ }

/-! ### Reachable states -/

theorem exec_cfg {i : Instr} {s t : State} (h : exec i s = .next t) : t.cfg = s.cfg := by
  obtain ⟨r, rfl⟩ | hc := exec_cases h
  · rfl
  · exact hc.cfg

/-- No operation writes the configuration. -/
theorem step_cfg {s t : State} (h : step s = .next t) : t.cfg = s.cfg := by
  obtain ⟨_, rfl⟩ | ⟨inp, _, ⟨_, rfl⟩ | ⟨_, r, _, rfl⟩ | ⟨_, i, u, _, hu, rfl⟩⟩ := step_cases h
  · simp
  · simp
  · simp
  · simp [exec_cfg hu]

theorem load_cfg {image : List Byte} {s t : State} (h : s.load image = .next t) : t.cfg = s.cfg := by
  obtain ⟨_, rfl⟩ := load_next h
  rfl

/-- Settles O22, by induction on how the host brought the state about. -/
theorem reachableStatesMeetTheInvariant : Obligations.ReachableStatesMeetTheInvariant := by
  intro c s h
  induction h with
  | constructed h =>
    obtain ⟨hadm, rfl⟩ := construct_next.mp h
    exact ⟨.initial hadm, rfl⟩
  | loaded h =>
    obtain ⟨hadm, hload⟩ := boot_next h
    exact ⟨(BlockInv.initial hadm).after_load hload, load_cfg hload⟩
  | planned ops _ ih => exact ⟨ih.1.with_pending ops, ih.2⟩
  | stepped _ h ih => exact ⟨ih.1.after_step h, (step_cfg h).trans ih.2⟩

end Sys2Proof.Machine
end

section
/-! The call stack (spec R30, R31). -/

namespace Sys2Proof.Machine

/-- A push that succeeds had room (R30). -/
theorem push_next {a : Word} {s t : State} (h : push a s = .ok t) :
    s.stack.length < s.cfg.stackDepth ∧ t = { s with stack := s.stack ++ [a] } := by
  by_cases hroom : s.stack.length < s.cfg.stackDepth
  · rw [push_ok hroom] at h
    cases h
    exact ⟨hroom, rfl⟩
  · rw [push_error (Nat.le_of_not_lt hroom)] at h
    cases h

/-- Pushes that fit in the depth pile up in order (R30). -/
theorem foldlM_push_ok (addrs : List Word) : ∀ s : State, s.stack.length + addrs.length ≤ s.cfg.stackDepth →
    addrs.foldlM (fun u a => push a u) s = .ok { s with stack := s.stack ++ addrs } := by
  induction addrs with
  | nil => intro s _; rw [List.append_nil]; rfl
  | cons a addrs ih =>
    intro s h
    rw [List.length_cons] at h
    have hrest : (s.stack ++ [a]).length + addrs.length ≤ s.cfg.stackDepth := by
      rw [List.length_append, List.length_singleton]
      omega
    rw [List.append_cons, List.foldlM_cons, push_ok (by omega)]
    exact ih { s with stack := s.stack ++ [a] } hrest

/-- Pushes past the depth overflow: once the stack is full the next push is refused (R30). -/
theorem foldlM_push_error (addrs : List Word) : ∀ s : State, s.stack.length ≤ s.cfg.stackDepth →
    s.cfg.stackDepth < s.stack.length + addrs.length →
    addrs.foldlM (fun u a => push a u) s = .error .stackOverflow := by
  induction addrs with
  | nil => intro s hle h; exact absurd hle (Nat.not_le_of_lt h)
  | cons a addrs ih =>
    intro s hle h
    rw [List.foldlM_cons]
    by_cases hroom : s.stack.length < s.cfg.stackDepth
    · rw [push_ok hroom]
      refine ih { s with stack := s.stack ++ [a] } ?_ ?_
      · simpa using hroom
      · simpa [Nat.add_assoc, Nat.add_comm 1] using h
    · rw [push_error (Nat.le_of_not_lt hroom)]
      rfl

/-- Settles O28, by induction on the pushes from a stack of any height. -/
theorem stackHoldsItsDepth : Obligations.StackHoldsItsDepth := by
  refine fun s addrs hs => ⟨fun h => ?_, fun h => ?_⟩
  · simpa [hs] using foldlM_push_ok addrs s (by simpa [hs] using h)
  · exact foldlM_push_error addrs s (by simp [hs]) (by simpa [hs] using h)

/-- Settles O29: a successful push leaves its address last. -/
theorem popReturnsTheLastPushed : Obligations.PopReturnsTheLastPushed := by
  refine fun s t a => ⟨pop_nil, fun h => ?_⟩
  obtain ⟨_, rfl⟩ := push_next h
  exact pop_concat rfl

end Sys2Proof.Machine
end

section
/-! The recorded reason (spec R34). -/

namespace Sys2Proof.Machine

@[simp] theorem nextOp_reason (s : State) : (nextOp s).2.reason = s.reason := by
  obtain ⟨ops, d, e⟩ := nextOp_state s
  rw [e]

/-- Nothing clears or replaces a recorded reason: ticks and steps in Halted leave it alone (R34, R103). -/
theorem step_reason_of_halted {s t : State} (hs : s.run = .halted) (h : step s = .next t) : t.reason = s.reason := by
  obtain ⟨_, rfl⟩ | ⟨_, _, ⟨_, rfl⟩ | ⟨hr, _⟩ | ⟨hr, _⟩⟩ := step_cases h
  · simp
  · simp
  · rw [hs] at hr; cases hr
  · rw [hs] at hr; cases hr

/-- Settles O24: the invariant ties the reason to the run state, and no operation touches it in Halted. -/
theorem reasonIsWrittenOnce : Obligations.ReasonIsWrittenOnce := by
  refine ⟨rfl, fun s t hi h => ?_⟩
  have hreason := (hi.after_step h).reason
  exact ⟨fun hr => by simpa [hr] using hreason, hreason.mp, fun hs => step_reason_of_halted hs h⟩

end Sys2Proof.Machine
end

section
/-! Encoding and decoding are inverse (spec R85, R90), so the instruction at PC is the one whose word stands there. -/

namespace Sys2Proof

/-- The word of an instruction decodes to it (R85, R90): its layout's fields select its arm. -/
theorem decodeWord_encode (i : Instr) : decodeWord (encode i) = .instr i := by
  cases i with
  | cls | ret => rfl
  | _ => simp [encode, decodeWord, decodeAlu, decodeKey, decodeMisc]

/-! ### A word from the fields the decoder tests -/

theorem layoutNNN_eq {w : Word} {op : Nat} (hop : (fieldOp w).toNat = op) :
    layoutNNN (BitVec.ofNat 4 op) (fieldNNN w) = w := by
  subst hop
  simpa using layoutNNN_fields w

theorem layoutXKK_eq {w : Word} {op : Nat} {kk : Byte} (hop : (fieldOp w).toNat = op) (hkk : fieldKK w = kk) :
    layoutXKK (BitVec.ofNat 4 op) (fieldX w) kk = w := by
  subst hop hkk
  simpa using layoutXKK_fields w

theorem layoutXYN_eq {w : Word} {op n : Nat} (hop : (fieldOp w).toNat = op) (hn : (fieldN w).toNat = n) :
    layoutXYN (BitVec.ofNat 4 op) (fieldX w) (fieldY w) (BitVec.ofNat 4 n) = w := by
  subst hop hn
  simpa using layoutXYN_fields w

/-! ### The families of R85 -/

theorem encode_of_decodeFixed {w : Word} {i : Instr} (h : decodeFixed w = .instr i) : encode i = w := by
  unfold decodeFixed at h
  split at h
  · cases h; exact Eq.symm ‹_›
  · split at h <;> cases h; exact Eq.symm ‹_›

theorem encode_of_decodeAlu {w : Word} {i : Instr} (hop : (fieldOp w).toNat = 0x8) (h : decodeAlu w = .instr i) :
    encode i = w := by
  unfold decodeAlu at h
  dsimp only at h
  split at h <;> cases h <;> exact layoutXYN_eq hop ‹_›

theorem encode_of_decodeKey {w : Word} {i : Instr} (hop : (fieldOp w).toNat = 0xE) (h : decodeKey w = .instr i) :
    encode i = w := by
  unfold decodeKey at h
  split_ifs at h <;> cases h <;> exact layoutXKK_eq hop ‹_›

theorem encode_of_decodeMisc {w : Word} {i : Instr} (hop : (fieldOp w).toNat = 0xF) (h : decodeMisc w = .instr i) :
    encode i = w := by
  unfold decodeMisc at h
  dsimp only at h
  split_ifs at h <;> cases h <;> exact layoutXKK_eq hop ‹_›

/-- The instruction a word decodes to has that word and no other (R85, D6). Case `h_1` is the top nibble 0, and
so on in the order of `decodeWord`. -/
theorem encode_of_decodeWord {w : Word} {i : Instr} (h : decodeWord w = .instr i) : encode i = w := by
  unfold decodeWord at h
  split at h
  case h_1 => exact encode_of_decodeFixed h
  case h_9 hop => exact encode_of_decodeAlu hop h
  case h_15 hop => exact encode_of_decodeKey hop h
  case h_16 =>
    have hlt := (fieldOp w).isLt
    have hop : (fieldOp w).toNat = 0xF := by grind
    exact encode_of_decodeMisc hop h
  case h_6 hop | h_10 hop =>
    split_ifs at h with hn
    cases h
    exact layoutXYN_eq hop (congrArg BitVec.toNat hn)
  case h_14 hop => cases h; simpa [encode] using layoutXYN_eq hop rfl
  case h_2 hop | h_3 hop | h_11 hop | h_12 hop => cases h; exact layoutNNN_eq hop
  case h_4 hop | h_5 hop | h_7 hop | h_8 hop | h_13 hop => cases h; exact layoutXKK_eq hop rfl

/-- The words of the table's 34 rows and no others decode to an instruction (R87). -/
theorem decodeWord_eq_instr_iff {w : Word} {i : Instr} : decodeWord w = .instr i ↔ w = encode i :=
  ⟨fun h => (encode_of_decodeWord h).symm, fun h => h ▸ decodeWord_encode i⟩

end Sys2Proof

namespace Sys2Proof.Machine

/-- The step fetches `i` exactly if its word stands at PC (R60, R100). -/
theorem fetchInstr_eq_ok_iff {s : State} {i : Instr} : fetchInstr s = .ok i ↔ WordAtPc s (encode i) := by
  constructor
  · intro h
    obtain ⟨w, hw, hd⟩ := fetchInstr_ok h
    rwa [decodeWord_eq_instr_iff.mp hd] at hw
  · intro h
    rw [fetchInstr_of_word h.1, packWord_of_wordAtPc h, decodeWord_encode]

end Sys2Proof.Machine
end

section
/-! The awaiting flag (spec R35, R100, R102). -/

namespace Sys2Proof.Machine

/-- The result is read off the state: AwaitingKey is the flag of a running block (R102; log 9). -/
theorem result_awaitingKey_iff {s : State} (hs : s.run = .running) :
    s.result = .awaitingKey ↔ s.awaiting = true := by
  unfold State.result
  rw [hs]
  cases s.awaiting <;> simp

/-- The key wait sets the flag exactly with no key (R240; D18). -/
@[simp] theorem keyWait_awaiting (x : Nibble) (s : State) : (keyWait x s).awaiting = s.input.lastKey.isNone := by
  unfold keyWait
  split <;> simp [*]

theorem Stepping.input {s u : State} {inp : StepInput} (h : Stepping s inp u) : u.input = inp := by
  obtain ⟨_, ⟨_, _, rfl⟩ | ⟨_, _, rfl⟩⟩ := h <;> rfl

/-- A step of a running block that keeps it running has fetched an instruction and completed it. -/
theorem step_running {s u t : State} {inp : StepInput} (hu : Stepping s inp u) (h : step s = .next t)
    (ht : t.run = .running) : ∃ i v, WordAtPc s (encode i) ∧ exec i u = .next v ∧ t = settleAwaiting i v := by
  rw [step_of_stepping hu] at h
  cases hf : fetchInstr s with
  | error r =>
    rw [hf] at h
    cases h
    cases ht
  | ok i =>
    rw [hf] at h
    obtain ⟨v, hv, hvt⟩ := afterExec_next h
    exact ⟨i, v, fetchInstr_eq_ok_iff.mp hf, hv, hvt⟩

/-- One instruction at most stands at PC. -/
theorem wordAtPc_encode_inj {s : State} {i j : Instr} (hi : WordAtPc s (encode i)) (hj : WordAtPc s (encode j)) :
    i = j :=
  Except.ok.inj ((fetchInstr_eq_ok_iff.mpr hi).symm.trans (fetchInstr_eq_ok_iff.mpr hj))

/-- Settles O11: the step ran one instruction `i`; the flag is what a key wait left, and cleared after any other. -/
theorem awaitingExactlyAfterKeylessWait : Obligations.AwaitingExactlyAfterKeylessWait := by
  intro s u t inp hu h ht
  refine ⟨?_, result_awaitingKey_iff ht⟩
  obtain ⟨i, v, hi, hv, rfl⟩ := step_running hu h ht
  rw [settleAwaiting_awaiting]
  have hword : ∀ x, WordAtPc s (encode (.ldVxK x)) ↔ i = .ldVxK x :=
    fun x => ⟨wordAtPc_encode_inj hi, fun e => e ▸ hi⟩
  simp only [hword]
  cases i with
  | ldVxK x => cases hv; simp [isKeyWait, hu.input]
  | _ => simp [isKeyWait]

end Sys2Proof.Machine
end

section
/-! The frame of every instruction (spec R22 to R32, R51): a frame is carried through the model's updates one by one,
each asking that the part it writes be named. -/

namespace Sys2Proof.Machine

/-! ### Frames and updates -/

theorem SameExcept.refl (may : Part → Prop) (s : State) : SameExcept may s s := by
  intro p _
  cases p <;> rfl

theorem SameExcept.mono {may may' : Part → Prop} {s t : State} (h : SameExcept may s t)
    (hle : ∀ p, may p → may' p) : SameExcept may' s t :=
  fun p hp => h p fun hm => hp (hle p hm)

theorem SameExcept.trans {may : Part → Prop} {s t u : State} (h : SameExcept may s t) (h' : SameExcept may t u) :
    SameExcept may s u := by
  intro p hp
  have hst := h p hp
  have htu := h' p hp
  cases p <;> exact Eq.trans htu hst

section
variable {may : Part → Prop} {s t : State} (h : SameExcept may s t)
include h

/-- Advance, Skip, Hold and a jump are this update with different targets (R104). -/
theorem SameExcept.withPc (hpc : may .pc) (w : Word) : SameExcept may s { t with pc := w } := by
  intro p hp
  cases p with
  | pc => exact absurd hpc hp
  | _ => exact h _ hp

theorem SameExcept.withI (hi : may .i) (w : Word) : SameExcept may s { t with i := w } := by
  intro p hp
  cases p with
  | i => exact absurd hi hp
  | _ => exact h _ hp

theorem SameExcept.withDt (hdt : may .dt) (b : Byte) : SameExcept may s { t with dt := b } := by
  intro p hp
  cases p with
  | dt => exact absurd hdt hp
  | _ => exact h _ hp

theorem SameExcept.withSt (hst : may .st) (b : Byte) : SameExcept may s { t with st := b } := by
  intro p hp
  cases p with
  | st => exact absurd hst hp
  | _ => exact h _ hp

theorem SameExcept.withStack (hstack : may .stack) (st : List Word) : SameExcept may s { t with stack := st } := by
  intro p hp
  cases p with
  | stack => exact absurd hstack hp
  | _ => exact h _ hp

theorem SameExcept.withAwaiting (hwait : may .awaiting) (b : Bool) : SameExcept may s (setAwaiting b t) := by
  intro p hp
  cases p with
  | awaiting => exact absurd hwait hp
  | _ => exact h _ hp

theorem SameExcept.withFrame (hfb : ∀ x y, may (.pixel x y)) (f : Frame) : SameExcept may s { t with fb := f } := by
  intro p hp
  cases p with
  | pixel x y => exact absurd (hfb x y) hp
  | _ => exact h _ hp

theorem SameExcept.withReg {x : Nibble} (hx : may (.reg x)) (b : Byte) : SameExcept may s (t.setReg x b) := by
  intro p hp
  cases p with
  | reg y =>
    have hne : y ≠ x := fun e => hp (e ▸ hx)
    exact (setReg_reg t x y b).trans ((if_neg hne).trans (h _ hp))
  | _ => exact h _ hp

/-- The bytes of memory are read under the configuration, which is no part this update writes. -/
theorem SameExcept.withMem {m : Memory} (hmem : ∀ a, ¬ may (.byte a) → Memory.read t.cfg m a = t.byteAt a) :
    SameExcept may s { t with mem := m } := by
  intro p hp
  cases p with
  | byte a => exact (hmem a hp).trans (h _ hp)
  | _ => exact h _ hp

/-- LogicFlag names VF only under `LOGIC_RESETS_VF` (R176). -/
theorem SameExcept.withLogicFlag (hf : t.cfg.logicResetsVf = true → may (.reg vF)) :
    SameExcept may s (logicFlag t) := by
  unfold logicFlag
  split
  · exact h.withReg (hf ‹_›) _
  · exact h

/-- A result and a flag name Vx and VF in either order (R171). -/
theorem SameExcept.withFlagged {x : Nibble} (hx : may (.reg x)) (hf : may (.reg vF)) (r f : Byte) (o : AluVfOrder) :
    SameExcept may s (writeFlagged x r f o t) := by
  cases o with
  | flagFirst => exact (h.withReg hf f).withReg hx r
  | flagLast => exact (h.withReg hx r).withReg hf f

/-- FX55 and FX65 name I only under `LDST_INCREMENT_I` (R204, R205). -/
theorem SameExcept.withBump (x : Nibble) (hi : t.cfg.ldstIncrementI = true → may .i) :
    SameExcept may s (bumpIndex x t) := by
  unfold bumpIndex
  split
  · exact h.withI (hi ‹_›) _
  · exact h

/-- A register load from `k` on: what would fall past VF is no register and need not be named. -/
theorem SameExcept.withRegs {bs : List Byte} {k : Nat}
    (hregs : ∀ y : Nibble, k ≤ y.toNat → y.toNat < k + bs.length → may (.reg y)) :
    SameExcept may s (t.setRegs k bs) := by
  refine h.trans fun p hp => ?_
  cases p with
  | reg y =>
    refine (setRegs_reg bs t k y).trans (dif_neg fun hy => hp (hregs y hy.1 ?_))
    omega
  | pixel x y => exact congrArg (Frame.pixel · x y) (setRegs_fb bs t k)
  | byte a => exact setRegs_byteAt bs t k a
  | _ => simp [Part.Same]

/-- A drawing names VF and every pixel (R122, R123). -/
theorem SameExcept.withDrawing (hf : may (.reg vF)) (hfb : ∀ x y, may (.pixel x y)) (x y : Nibble)
    (rows : List Byte) : SameExcept may s (drawAndFlag x y rows t) :=
  (h.withFrame hfb _).withReg hf _

end

/-- A block write names the bytes of its block (R57, R58). -/
theorem writeBlock_sameExcept {may : Part → Prop} {bs : List Byte} {s t : State} (h : writeBlock 0 bs s = .ok t)
    (hbytes : ∀ k, k < bs.length → may (.byte (ea s.i k))) : SameExcept may s t := by
  have hother := writeBlock_byteAt_other bs 0 s t
  obtain ⟨m, rfl⟩ := writeBlock_fields bs 0 s t h
  refine (SameExcept.refl may s).withMem fun a ha => hother a h fun j hj e => ha ?_
  rw [e, Nat.zero_add]
  exact hbytes j hj

theorem takeHalt_sameExcept (r : HaltReason) (s : State) : SameExcept Part.OfHalt s (takeHalt r s) := by
  intro p hp
  cases p with
  | run => exact absurd (.inl rfl) hp
  | reason => exact absurd (.inr (.inl rfl)) hp
  | awaiting => exact absurd (.inr (.inr rfl)) hp
  | _ => rfl

/-! ### The instructions -/

/-- The bytes read are as many as asked for. -/
theorem readBlock_length {s : State} {n : Nat} : ∀ {k : Nat} {bs : List Byte}, readBlock s k n = .ok bs →
    bs.length = n := by
  induction n with
  | zero => intro k bs h; cases h; rfl
  | succ n ih =>
    intro k bs h
    rw [readBlock] at h
    split at h
    · cases h
    · split at h <;> cases h
      exact congrArg (· + 1) (ih ‹_›)

/-- An instruction whose body may raise a halt halts, or answers a state that its body answers. -/
theorem orHalt_imp {P : State → Prop} {s t : State} {body : Except HaltReason State}
    (hbody : ∀ u, body = .ok u → P u) (h : orHalt s body = .next t) : (∃ r, t = takeHalt r s) ∨ P t := by
  obtain hok | ⟨r, _, ht⟩ := orHalt_next h
  · exact .inr (hbody t hok)
  · exact .inl ⟨r, ht⟩

/-- An instruction halts, or completes and changes PC and its own destinations only. -/
theorem exec_sameExcept {i : Instr} {s t : State} (h : exec i s = .next t) :
    (∃ r, t = takeHalt r s) ∨ SameExcept (fun p => p = .pc ∨ MayWrite s p i) s t := by
  have start := SameExcept.refl (fun p => p = .pc ∨ MayWrite s p i) s
  cases i with
  | jp | jpV0 | seImm | sneImm | seReg | sneReg => cases h; exact .inr (start.withPc (.inl rfl) _)
  | cls => cases h; exact .inr ((start.withFrame (fun x y => .inr ⟨x, y, rfl⟩) _).withPc (.inl rfl) _)
  | ldImm | addImm | ldReg | rnd | ldVxDt => cases h; exact .inr ((start.withReg (.inr rfl) _).withPc (.inl rfl) _)
  | orReg | andReg | xorReg =>
    cases h
    refine .inr (SameExcept.withPc ?_ (.inl rfl) _)
    exact (start.withReg (.inr (.inl rfl)) _).withLogicFlag fun hl => .inr (.inr ⟨hl, rfl⟩)
  | addReg | subReg | subnReg | shr | shl =>
    cases h
    exact .inr ((start.withFlagged (.inr (.inl rfl)) (.inr (.inr rfl)) _ _ _).withPc (.inl rfl) _)
  | ldI | addIVx => cases h; exact .inr ((start.withI (.inr rfl) _).withPc (.inl rfl) _)
  | ldDtVx => cases h; exact .inr ((start.withDt (.inr rfl) _).withPc (.inl rfl) _)
  | ldStVx => cases h; exact .inr ((start.withSt (.inr rfl) _).withPc (.inl rfl) _)
  | ldVxK x =>
    cases h
    right
    unfold keyWait
    split
    · exact ((start.withReg (.inr (.inl rfl)) _).withAwaiting (.inr (.inr rfl)) _).withPc (.inl rfl) _
    · exact start.withAwaiting (.inr (.inr rfl)) true
  | ret =>
    refine orHalt_imp (fun u hu => ?_) h
    obtain ⟨_, e⟩ | ⟨st, a, _, e⟩ := pop_cases s <;> rw [e] at hu <;> cases hu
    exact (start.withStack (.inr rfl) st).withPc (.inl rfl) a
  | call nnn =>
    refine orHalt_imp (fun u hu => ?_) h
    split at hu <;> cases hu
    obtain ⟨_, rfl⟩ := push_next ‹_›
    exact (start.withStack (.inr rfl) _).withPc (.inl rfl) _
  | skp | sknp =>
    refine orHalt_imp (fun u hu => ?_) h
    split at hu <;> cases hu
    exact start.withPc (.inl rfl) _
  | ldFVx =>
    refine orHalt_imp (fun u hu => ?_) h
    split at hu <;> cases hu
    exact (start.withI (.inr rfl) _).withPc (.inl rfl) _
  | drw =>
    refine orHalt_imp (fun u hu => ?_) h
    split at hu <;> cases hu
    exact (start.withDrawing (.inr (.inl rfl)) (fun x y => .inr (.inr ⟨x, y, rfl⟩)) _ _ _).withPc (.inl rfl) _
  | ldBVx =>
    refine orHalt_imp (fun u hu => ?_) h
    split at hu <;> cases hu
    next v hv => exact (writeBlock_sameExcept hv fun k hk => .inr ⟨k, hk, rfl⟩).withPc (.inl rfl) _
  | ldMemVx x =>
    refine orHalt_imp (fun u hu => ?_) h
    split at hu <;> cases hu
    next v hv =>
      have hblock := writeBlock_sameExcept hv (may := fun p => p = .pc ∨ MayWrite s p (.ldMemVx x))
        fun k hk => .inr (.inl ⟨k, by rwa [regsUpTo_length] at hk, rfl⟩)
      have hbump : v.cfg.ldstIncrementI = true → s.cfg.ldstIncrementI = true := by
        rw [(writeBlock_completes hv).cfg]
        exact id
      exact (hblock.withBump x fun hi => .inr (.inr ⟨hbump hi, rfl⟩)).withPc (.inl rfl) _
  | ldVxMem x =>
    refine orHalt_imp (fun u hu => ?_) h
    split at hu <;> cases hu
    next bs hbs =>
      have hlen := readBlock_length hbs
      have hregs := start.withRegs (k := 0) (bs := bs) fun y _ hy => .inr (.inl ⟨y, by omega, rfl⟩)
      exact (hregs.withBump x fun hi => .inr (.inr ⟨by simpa using hi, rfl⟩)).withPc (.inl rfl) _

/-- Settles O25: an instruction that halts changes what a halt writes, any other PC and its own destinations. -/
theorem onlyTheNamedWritersWrite : Obligations.OnlyTheNamedWritersWrite := by
  intro i s t h
  obtain ⟨r, rfl⟩ | hframe := exec_sameExcept h
  · exact (takeHalt_sameExcept r s).mono fun p hp => .inr (.inl ⟨hp, rfl⟩)
  · exact hframe.mono fun p hp => hp.imp_right .inr

end Sys2Proof.Machine
end

section
/-! What an instruction does not read (spec R28, R36, R38, R236): every shared operation commutes with changing ST,
the program end and the step input, and so does every instruction that neither writes ST nor reads the input. -/

namespace Sys2Proof.Machine

/-- The same state but for ST, the program end and the step input. -/
def State.withUnread (b : Byte) (e : Word) (inp : StepInput) (s : State) : State :=
  { s with st := b, progEnd := e, input := inp }

section
variable (b : Byte) (e : Word) (inp : StepInput) (s : State)

@[simp] theorem withUnread_i : (s.withUnread b e inp).i = s.i := rfl
@[simp] theorem withUnread_pc : (s.withUnread b e inp).pc = s.pc := rfl
@[simp] theorem withUnread_cfg : (s.withUnread b e inp).cfg = s.cfg := rfl
@[simp] theorem withUnread_reg (x : Nibble) : (s.withUnread b e inp).reg x = s.reg x := rfl
@[simp] theorem withUnread_regsUpTo (x : Nibble) : (s.withUnread b e inp).regsUpTo x = s.regsUpTo x := rfl

/-! ### The shared operations -/

@[simp] theorem advance_withUnread : advance (s.withUnread b e inp) = (advance s).withUnread b e inp := rfl

@[simp] theorem setReg_withUnread (x : Nibble) (v : Byte) :
    (s.withUnread b e inp).setReg x v = (s.setReg x v).withUnread b e inp := rfl

@[simp] theorem logicFlag_withUnread : logicFlag (s.withUnread b e inp) = (logicFlag s).withUnread b e inp := by
  cases hc : s.cfg.logicResetsVf <;> simp [logicFlag, hc]

@[simp] theorem writeFlagged_withUnread (x : Nibble) (r f : Byte) (o : AluVfOrder) :
    writeFlagged x r f o (s.withUnread b e inp) = (writeFlagged x r f o s).withUnread b e inp := by
  cases o <;> rfl

@[simp] theorem bumpIndex_withUnread (x : Nibble) :
    bumpIndex x (s.withUnread b e inp) = (bumpIndex x s).withUnread b e inp := by
  cases hc : s.cfg.ldstIncrementI <;> simp [bumpIndex, hc, State.withUnread]

@[simp] theorem setRegs_withUnread (bs : List Byte) : ∀ (s : State) (k : Nat),
    (s.withUnread b e inp).setRegs k bs = (s.setRegs k bs).withUnread b e inp := by
  induction bs with
  | nil => intro s k; rfl
  | cons v bs ih => intro s k; exact ih { s with v := s.v.setIfInBounds k v } (k + 1)

theorem keyWait_withUnread (x : Nibble) :
    keyWait x (s.withUnread b e s.input) = (keyWait x s).withUnread b e s.input := by
  cases hk : s.input.lastKey <;> simp only [keyWait, State.withUnread, hk] <;> rfl

theorem pop_withUnread : pop (s.withUnread b e inp) = (pop s).map (Prod.map id (State.withUnread b e inp)) := by
  obtain ⟨hs, hp⟩ | ⟨st, a, hs, hp⟩ := pop_cases s <;> rw [hp]
  · exact pop_nil hs
  · exact pop_concat hs

theorem push_withUnread (a : Word) : push a (s.withUnread b e inp) = (push a s).map (State.withUnread b e inp) := by
  by_cases hroom : s.stack.length < s.cfg.stackDepth
  · rw [push_ok hroom]
    exact push_ok hroom
  · rw [push_error (Nat.le_of_not_lt hroom)]
    exact push_error (Nat.le_of_not_lt hroom)

theorem readBlock_withUnread (n : Nat) : ∀ k : Nat, readBlock (s.withUnread b e inp) k n = readBlock s k n := by
  induction n with
  | zero => intro k; rfl
  | succ n ih => intro k; rw [readBlock, ih]; rfl

theorem memWrite_withUnread (a : Nat) (v : Byte) :
    memWrite (s.withUnread b e inp) a v = (memWrite s a v).map (State.withUnread b e inp) := by
  by_cases ha : a < memSize
  · by_cases hf : inFont s.cfg a = true
    · cases hp : s.cfg.fontWritePolicy <;> simp only [memWrite, withUnread_cfg, ha, hf, hp, if_true] <;> rfl
    · simp only [memWrite, withUnread_cfg, ha, hf, if_true]
      rfl
  · simp only [memWrite, ha, if_false]
    rfl

theorem writeBlock_withUnread (bs : List Byte) : ∀ (k : Nat) (s : State),
    writeBlock k bs (s.withUnread b e inp) = (writeBlock k bs s).map (State.withUnread b e inp) := by
  induction bs with
  | nil => intro k s; rfl
  | cons v bs ih =>
    intro k s
    rw [writeBlock, writeBlock, memWrite_withUnread, withUnread_i]
    cases memWrite s (ea s.i k) v with
    | error r => rfl
    | ok t => exact ih (k + 1) t

/-! ### The instructions -/

/-- If the body of an instruction commutes with the change, so does the instruction: a halt discards the body and
keeps both (R265). -/
theorem orHalt_withUnread {t : State} {body body' : Except HaltReason State}
    (hbody : body' = body.map (State.withUnread b e inp)) (h : orHalt s body = .next t) :
    orHalt (s.withUnread b e inp) body' = .next (t.withUnread b e inp) := by
  subst hbody
  cases body <;> cases h <;> rfl

/-- Every instruction but FX18 does the same with other values in ST and the program end, and with another step input
if it is none of the four that read it (R28, R36, R101, R236). -/
theorem exec_withUnread {i : Instr} {t : State} (hst : setsSt i = false) (hin : readsInput i = true → inp = s.input)
    (h : exec i s = .next t) : exec i (s.withUnread b e inp) = .next (t.withUnread b e inp) := by
  cases i with
  | ldStVx => cases hst
  | ret =>
    refine orHalt_withUnread b e inp s ?_ h
    rw [pop_withUnread]
    cases pop s <;> rfl
  | call =>
    refine orHalt_withUnread b e inp s ?_ h
    rw [push_withUnread, withUnread_pc]
    cases push (s.pc + 2) s <;> rfl
  | skp x | sknp x =>
    obtain rfl := hin rfl
    refine orHalt_withUnread b e s.input s ?_ h
    rw [withUnread_cfg, withUnread_reg]
    cases nibbleIndex s.cfg (s.reg x) <;> rfl
  | ldFVx x =>
    refine orHalt_withUnread b e inp s ?_ h
    rw [withUnread_cfg, withUnread_reg]
    cases nibbleIndex s.cfg (s.reg x) <;> rfl
  | drw x y n =>
    refine orHalt_withUnread b e inp s ?_ h
    rw [readBlock_withUnread]
    cases readBlock s 0 n.toNat <;> rfl
  | ldBVx x =>
    refine orHalt_withUnread b e inp s ?_ h
    rw [writeBlock_withUnread, withUnread_reg]
    cases writeBlock 0 (bcdDigits (s.reg x)) s <;> rfl
  | ldMemVx x =>
    refine orHalt_withUnread b e inp s ?_ h
    rw [writeBlock_withUnread, withUnread_regsUpTo]
    cases writeBlock 0 (s.regsUpTo x) s <;> simp [Except.map]
  | ldVxMem x =>
    refine orHalt_withUnread b e inp s ?_ h
    rw [readBlock_withUnread]
    cases readBlock s 0 (x.toNat + 1) <;> simp [Except.map]
  | ldVxK x =>
    obtain rfl := hin rfl
    cases h
    exact congrArg Host.Outcome.next (keyWait_withUnread b e s x)
  | rnd x kk =>
    obtain rfl := hin rfl
    cases h
    rfl
  | orReg | andReg | xorReg => cases h; simp [exec, execOrReg, execAndReg, execXorReg]
  | addReg | subReg | subnReg => cases h; simp [exec, execAddReg, execSubReg, execSubnReg]
  | _ => cases h; rfl

end

/-- No instruction writes the step input: it is none of the destinations of R23 to R32. -/
theorem exec_input {i : Instr} {s t : State} (h : exec i s = .next t) : t.input = s.input := by
  obtain ⟨r, rfl⟩ | hframe := exec_sameExcept h
  · rfl
  · exact hframe .input (by cases i <;> simp [MayWrite, Part.InBlock])

/-- Settles O26: FX18 writes the same ST whatever stood there; every other instruction commutes with the change. -/
theorem noInstructionReadsStOrProgEnd : Obligations.NoInstructionReadsStOrProgEnd := by
  intro i s t b e h
  cases hi : setsSt i with
  | false =>
    have hrun := exec_withUnread b e s.input s hi (fun _ => rfl) h
    exact hrun.trans (by rw [← exec_input h]; rfl)
  | true =>
    cases i with
    | ldStVx x => cases h; rfl
    | _ => cases hi

end Sys2Proof.Machine
end

section
/-! Memory (spec R54, R55, R58, R60, R64, R69): the round trip of instruction words, the step's fetch, the load, the
font ROM, and the blocks of FX33, FX55, FX65 and DRW. -/

namespace Sys2Proof

/-- The bytes of an instruction decode to it and leave what follows them (R59, R80). -/
theorem decodeBytes_encodeBytes (i : Instr) (rest : List Byte) :
    decodeBytes (encodeBytes i ++ rest) = .ok (i, rest) := by
  simp [encodeBytes, decodeBytes, decodeWord_encode]

/-- Settles O2: the fields of an instruction's layout select its arm, and a word is its two bytes packed. -/
theorem decodeOfEncodeIsTheInstruction : Obligations.DecodeOfEncodeIsTheInstruction :=
  fun i rest => ⟨decodeWord_encode i, decodeBytes_encodeBytes i rest⟩

end Sys2Proof

namespace Sys2Proof.Machine

/-! ### The step's fetch -/

/-- A running step with an instruction's word at PC runs that instruction (R100). -/
theorem step_of_wordAtPc {s u : State} {inp : StepInput} {i : Instr} (hu : Stepping s inp u)
    (hi : WordAtPc s (encode i)) : step s = afterExec i (exec i u) := by
  rw [step_of_stepping hu, fetchInstr_eq_ok_iff.mpr hi]

/-- Settles O6: the word at PC is the instruction's own, and what stands around the instruction settles the flag. -/
theorem stepRunsTheDecodedInstruction : Obligations.StepRunsTheDecodedInstruction := by
  intro s u inp w i hu hw hd
  obtain rfl := decodeWord_eq_instr_iff.mp hd
  rw [step_of_wordAtPc hu hw]
  cases exec i u <;> rfl

/-- Settles O7: the second byte of a fetch at 0xFFF lies at the end of memory. -/
theorem fetchAtLastByteHalts : Obligations.FetchAtLastByteHalts := by
  intro s u inp hu hpc
  have hpast : mask12 s.pc + 1 = memSize := by rw [mask12_eq, hpc]; rfl
  rw [step_of_stepping hu, fetchInstr_past hpast]
  rfl

/-- A fetch below the last byte reads the two bytes at PC (R60). -/
theorem fetchWord_ok {s : State} (h : mask12 s.pc + 1 < memSize) :
    fetchWord s = .ok (packWord (s.byteAt (mask12 s.pc)) (s.byteAt (mask12 s.pc + 1))) :=
  if_pos h

/-! ### Load -/

/-- Settles O18: a boot stores the image into the empty, so canonical, memory of the initial state. -/
theorem loadRoundTrip : Obligations.LoadRoundTrip := by
  intro c image s hboot k hk
  obtain ⟨_, hload⟩ := boot_next hboot
  obtain ⟨hfit, rfl⟩ := load_next hload
  exact Memory.read_writeAll image hk hfit (Memory.wf_nil c)

/-- What a load of an image that fits answers (R64). -/
theorem load_ok {image : List Byte} {s : State} (h : s.cfg.loadAddr + image.length ≤ memSize) :
    s.load image = .next { s with
      mem := Memory.writeAll s.cfg s.cfg.loadAddr image s.mem
      progEnd := BitVec.ofNat 16 (s.cfg.loadAddr + image.length) } :=
  if_pos ((imageFits_iff ..).mpr h)

theorem load_tooLarge {image : List Byte} {s : State} (h : memSize < s.cfg.loadAddr + image.length) :
    s.load image = .fault .loadTooLarge :=
  if_neg fun hfit => Nat.not_le_of_lt h ((imageFits_iff ..).mp hfit)

/-- The program end is a part of its own (R36). -/
theorem SameExcept.withProgEnd {may : Part → Prop} {s t : State} (h : SameExcept may s t) (hend : may .progEnd)
    (w : Word) : SameExcept may s { t with progEnd := w } := by
  intro p hp
  cases p with
  | progEnd => exact absurd hend hp
  | _ => exact h _ hp

/-- Storing bytes from `a` on names them and no other part. -/
theorem SameExcept.withStored {may : Part → Prop} {s t : State} (h : SameExcept may s t) (a : Nat) (bs : List Byte)
    (hbytes : ∀ k, k < bs.length → may (.byte (a + k))) :
    SameExcept may s { t with mem := Memory.writeAll t.cfg a bs t.mem } := by
  refine h.withMem fun b hb => Memory.read_writeAll_other bs ?_
  by_contra hin
  have hmay := hbytes (b - a) (by omega)
  rw [Nat.add_sub_cancel' (by omega)] at hmay
  exact hb hmay

/-- Settles O19: the load answers by the check of R64, and its two writes are the bytes of the image and the program
end. -/
theorem loadSucceedsExactlyWhenItFits : Obligations.LoadSucceedsExactlyWhenItFits := by
  refine fun s image => ⟨fun hfit => ?_, load_tooLarge⟩
  refine ⟨_, load_ok hfit, toNat_ofNat_of_le_memSize hfit, ?_⟩
  exact ((SameExcept.refl _ s).withStored _ image fun k hk => .inr ⟨k, hk, rfl⟩).withProgEnd (.inl rfl) _

/-! ### The font ROM -/

/-- Settles O23: a halt writes no byte, and an instruction that completes keeps the font (R54, R55). -/
theorem fontIsNeverOverwritten : Obligations.FontIsNeverOverwritten := by
  intro i s t k hp h hk
  obtain ⟨r, rfl⟩ | hc := exec_cases h
  · rfl
  · exact hc.font hp _ (inFont_add s.cfg hk)

/-! ### Blocks that halt -/

/-- Settles O50: both instructions write one block, which halts at its first bad address (R58, R264). -/
theorem storesHaltAtTheFirstBadAddress : Obligations.StoresHaltAtTheFirstBadAddress := by
  intro s x i n k hi hk hgood hbad
  have hblock : ∀ bs : List Byte, bs.length = n →
      writeBlock 0 bs s = .error (badWriteReason (ea s.i k)) := by
    intro bs hlen
    have herr := writeBlock_error bs 0 s k (hlen ▸ hk)
    simp only [Nat.zero_add] at herr
    exact herr hgood hbad
  obtain ⟨rfl, hn⟩ | ⟨rfl, hn⟩ := hi
  · rw [exec, execLdBVx, hblock (bcdDigits (s.reg x)) hn.symm]
    rfl
  · rw [exec, execLdMemVx, hblock _ ((regsUpTo_length s x).trans hn.symm)]
    rfl

/-- Settles O52: both instructions read one block before they write anything, and it halts at the first address past
memory (R58, R264). -/
theorem readsPastMemoryHalt : Obligations.ReadsPastMemoryHalt := by
  intro s x y n i len hi hpast
  have hblock : readBlock s 0 len = .error (.outOfBounds memSize) :=
    readBlock_error len 0 (Nat.zero_le _) (by rwa [Nat.zero_add])
  obtain ⟨rfl, rfl⟩ | ⟨rfl, rfl⟩ := hi
  · rw [exec, execDrw, hblock]
    rfl
  · rw [exec, execLdVxMem, hblock]
    rfl

/-! ### Blocks that complete -/

/-- FX55 to a writable block completes, and leaves the registers in it, in order (R204). -/
theorem exec_ldMemVx_ok {s : State} {x : Nibble} (hm : Memory.wf s.cfg s.mem = true)
    (hgood : ∀ k, k ≤ x.toNat → ¬ badWrite s.cfg (ea s.i k)) :
    ∃ t, exec (.ldMemVx x) s = .next (advance (bumpIndex x t)) ∧
      ∀ k : Nibble, k.toNat ≤ x.toNat → t.byteAt (ea s.i k.toNat) = afterWrite s (ea s.i k.toNat) (s.reg k) := by
  obtain ⟨t, ht⟩ := writeBlock_ok (s.regsUpTo x) 0 s fun j hj => by
    rw [regsUpTo_length] at hj
    rw [Nat.zero_add]
    exact hgood j (Nat.le_of_lt_succ hj)
  refine ⟨t, by rw [exec, execLdMemVx, ht]; rfl, fun k hk => ?_⟩
  have hlen : k.toNat < (s.regsUpTo x).length := by
    rw [regsUpTo_length]
    exact Nat.lt_succ_of_le hk
  have hbyte := writeBlock_byteAt _ 0 s t k.toNat hlen ht hm
  rwa [Nat.zero_add, regsUpTo_getElem, BitVec.ofNat_toNat, BitVec.setWidth_eq] at hbyte

/-- A byte stored outside the font ROM holds what was written. -/
theorem afterWrite_of_not_inFont {s : State} {a : Nat} (b : Byte) (h : inFont s.cfg a = false) :
    afterWrite s a b = b := by
  simp [afterWrite, h]

/-- Settles O54: the two bytes of the fetch are the block's bytes `k` and `k + 1` (R59, R60, R67). -/
theorem storedBytesAreFetched : Obligations.StoredBytesAreFetched := by
  intro s x k p hm hblock hk hp
  obtain ⟨t, hexec, hbytes⟩ := exec_ldMemVx_ok hm fun j hj => (hblock j hj).1
  have hstored : ∀ j : Nibble, j.toNat ≤ x.toNat → t.byteAt (ea s.i j.toNat) = s.reg j := fun j hj =>
    (hbytes j hj).trans (afterWrite_of_not_inFont _ (hblock _ hj).2)
  have hnext : (k + 1).toNat = k.toNat + 1 := by
    have hx := x.isLt
    exact (BitVec.toNat_add k 1).trans (Nat.mod_eq_of_lt (show k.toNat + 1 < 16 by omega))
  have hea : mask12 p + 1 = ea s.i (k + 1).toNat := by rw [hp, hnext]; rfl
  have hlast : (k + 1).toNat ≤ x.toNat := hnext ▸ hk
  have hin : mask12 p + 1 < memSize := by
    rw [hea]
    exact Nat.lt_of_not_le fun hpast => (hblock _ hlast).1 (.inl hpast)
  refine ⟨_, hexec, (fetchWord_ok hin).trans ?_⟩
  show Except.ok (packWord ((bumpIndex x t).byteAt (mask12 p)) ((bumpIndex x t).byteAt (mask12 p + 1))) = _
  rw [hea, hp, bumpIndex_byteAt, bumpIndex_byteAt, hstored k hk.le, hstored _ hlast]

end Sys2Proof.Machine
end

section
/-! The decoder against the table (spec R85, R87, R90): it answers an instruction of the row a word meets, and
`Unknown` for the words of R87. -/

namespace Sys2Proof

/-- Settles O3: each family of R85 tests every bit of the word that it does not keep as an operand. -/
theorem encodeOfDecodeIsTheWord : Obligations.EncodeOfDecodeIsTheWord :=
  fun _ _ => encode_of_decodeWord

/-- Settles O1 by running the decoder on the words listed. -/
theorem sampleWordsDecode : Obligations.SampleWordsDecode := by
  unfold Obligations.SampleWordsDecode
  decide

/-! ### The rows of the table -/

open Laws.TableRow in
/-- The word of an instruction meets the instruction's row, row by row (R90). -/
theorem encode_and_mask : ∀ i : Instr, encode i &&& i.row.mask = i.row.value
  | .cls => cls | .ret => ret | .jp nnn => jp nnn | .call nnn => call nnn | .seImm x kk => seImm x kk
  | .sneImm x kk => sneImm x kk | .seReg x y => seReg x y | .ldImm x kk => ldImm x kk | .addImm x kk => addImm x kk
  | .ldReg x y => ldReg x y | .orReg x y => orReg x y | .andReg x y => andReg x y | .xorReg x y => xorReg x y
  | .addReg x y => addReg x y | .subReg x y => subReg x y | .shr x y => shr x y | .subnReg x y => subnReg x y
  | .shl x y => shl x y | .sneReg x y => sneReg x y | .ldI nnn => ldI nnn | .jpV0 nnn => jpV0 nnn
  | .rnd x kk => rnd x kk | .drw x y n => drw x y n | .skp x => skp x | .sknp x => sknp x | .ldVxDt x => ldVxDt x
  | .ldVxK x => ldVxK x | .ldDtVx x => ldDtVx x | .ldStVx x => ldStVx x | .addIVx x => addIVx x | .ldFVx x => ldFVx x
  | .ldBVx x => ldBVx x | .ldMemVx x => ldMemVx x | .ldVxMem x => ldVxMem x

/-- A field whose bits the mask of a row all keeps is the field of the row's value. -/
theorem field_of_and {start len : Nat} {w m v : Word} (h : w &&& m = v)
    (hm : m.extractLsb' start len = BitVec.allOnes len) : w.extractLsb' start len = v.extractLsb' start len := by
  rw [← h, BitVec.extractLsb'_and, hm, BitVec.and_allOnes]

/-- A word that meets a row decodes to an instruction of that row: the row fixes every field the decoder tests, and
leaves the operands (R85, R90). The cases are the masks of the table. -/
theorem decodeWord_of_row {w : Word} {i : Instr} (h : w &&& i.row.mask = i.row.value) :
    ∃ j, decodeWord w = .instr j ∧ j.row = i.row := by
  cases i with
  | cls | ret =>
    obtain rfl := BitVec.and_allOnes.symm.trans h
    exact ⟨_, rfl, rfl⟩
  | jp | call | ldI | jpV0 | seImm | sneImm | ldImm | addImm | rnd | drw =>
    dsimp only [Instr.row] at h
    have hop : fieldOp w = fieldOp _ := field_of_and h rfl
    rw [decodeWord, hop]
    exact ⟨_, rfl, rfl⟩
  | seReg | ldReg | orReg | andReg | xorReg | addReg | subReg | shr | subnReg | shl | sneReg =>
    dsimp only [Instr.row] at h
    have hop : fieldOp w = fieldOp _ := field_of_and h rfl
    have hn : fieldN w = fieldN _ := field_of_and h rfl
    rw [decodeWord, decodeAlu, hop, hn]
    exact ⟨_, rfl, rfl⟩
  | skp | sknp | ldVxDt | ldVxK | ldDtVx | ldStVx | addIVx | ldFVx | ldBVx | ldMemVx | ldVxMem =>
    dsimp only [Instr.row] at h
    have hop : fieldOp w = fieldOp _ := field_of_and h rfl
    have hkk : fieldKK w = fieldKK _ := field_of_and h rfl
    rw [decodeWord, decodeKey, decodeMisc, hop, hkk]
    exact ⟨_, rfl, rfl⟩

/-- Settles O4: a word that decodes to `i` is the word of `i`, and a row fixes all that the decoder tests. -/
theorem decodeFollowsTheTableRows : Obligations.DecodeFollowsTheTableRows := by
  refine fun w i => ⟨fun h => ?_, decodeWord_of_row⟩
  rw [decodeWord_eq_instr_iff.mp h]
  exact encode_and_mask i

/-! ### The words that are `Unknown` -/

theorem fieldOp_toNat (w : Word) : (fieldOp w).toNat = w.toNat / 0x1000 := by
  have hw := w.isLt
  rw [fieldOp, BitVec.extractLsb'_toNat, Nat.shiftRight_eq_div_pow]
  omega

theorem fieldN_toNat (w : Word) : (fieldN w).toNat = w.toNat % 0x10 := rfl

theorem fieldKK_toNat (w : Word) : (fieldKK w).toNat = w.toNat % 0x100 := rfl

theorem decodeFixed_eq_unknown_iff {w w' : Word} :
    decodeFixed w = .unknown w' ↔ (w ≠ 0x00E0 ∧ w ≠ 0x00EE) ∧ w' = w := by
  unfold decodeFixed
  split_ifs <;> simp [*, eq_comm]

theorem decodeAlu_eq_unknown_iff {w w' : Word} :
    decodeAlu w = .unknown w' ↔ (fieldN w).toNat ∈ [0x8, 0x9, 0xA, 0xB, 0xC, 0xD, 0xF] ∧ w' = w := by
  have hlt := (fieldN w).isLt
  unfold decodeAlu
  dsimp only
  split
  case h_10 =>
    have hn : (fieldN w).toNat ∈ [0x8, 0x9, 0xA, 0xB, 0xC, 0xD, 0xF] := by
      simp only [List.mem_cons, List.not_mem_nil, or_false]
      grind
    simp [hn, eq_comm]
  all_goals simp [*]

theorem decodeKey_eq_unknown_iff {w w' : Word} :
    decodeKey w = .unknown w' ↔ (fieldKK w).toNat ∉ [0x9E, 0xA1] ∧ w' = w := by
  simp only [decodeKey, BitVec.toNat_eq (x := fieldKK w), BitVec.toNat_ofNat]
  split_ifs <;> simp [*, eq_comm (a := w)]

theorem decodeMisc_eq_unknown_iff {w w' : Word} :
    decodeMisc w = .unknown w' ↔
      (fieldKK w).toNat ∉ [0x07, 0x0A, 0x15, 0x18, 0x1E, 0x29, 0x33, 0x55, 0x65] ∧ w' = w := by
  simp only [decodeMisc, BitVec.toNat_eq (x := fieldKK w), BitVec.toNat_ofNat]
  split_ifs <;> simp [*, eq_comm (a := w)]

/-- The words of R87 by the fields the decoder tests. -/
theorem unknownWord_iff {w : Word} : Machine.UnknownWord w ↔
    ((fieldOp w).toNat = 0x0 ∧ w ≠ 0x00E0 ∧ w ≠ 0x00EE) ∨
    (((fieldOp w).toNat = 0x5 ∨ (fieldOp w).toNat = 0x9) ∧ fieldN w ≠ 0#4) ∨
    ((fieldOp w).toNat = 0x8 ∧ (fieldN w).toNat ∈ [0x8, 0x9, 0xA, 0xB, 0xC, 0xD, 0xF]) ∨
    ((fieldOp w).toNat = 0xE ∧ (fieldKK w).toNat ∉ [0x9E, 0xA1]) ∨
    ((fieldOp w).toNat = 0xF ∧
      (fieldKK w).toNat ∉ [0x07, 0x0A, 0x15, 0x18, 0x1E, 0x29, 0x33, 0x55, 0x65]) := by
  have hzero : w.toNat ≤ 0x0FFF ↔ w.toNat / 0x1000 = 0x0 := by omega
  have hn : fieldN w ≠ 0#4 ↔ w.toNat % 0x10 ≠ 0 := by rw [Ne, BitVec.toNat_eq, fieldN_toNat]; rfl
  rw [Machine.UnknownWord, hzero, hn, fieldOp_toNat, fieldN_toNat, fieldKK_toNat]

/-- Settles O5, one top nibble after the other: case `h_1` is the top nibble 0, and so on in the order of
`decodeWord`. The cases named hold words of R87; in the others every word is an instruction. -/
theorem unknownWordsExactly : Obligations.UnknownWordsExactly := by
  intro w w'
  rw [unknownWord_iff]
  have hlt := (fieldOp w).isLt
  unfold decodeWord
  split
  case h_1 hop => simp [hop, decodeFixed_eq_unknown_iff]
  case h_9 hop => simp [hop, decodeAlu_eq_unknown_iff]
  case h_15 hop => simp [hop, decodeKey_eq_unknown_iff]
  case h_16 =>
    have hop : (fieldOp w).toNat = 0xF := by grind
    simp [hop, decodeMisc_eq_unknown_iff]
  case h_6 hop | h_10 hop => split_ifs with hn <;> simp [hop, hn, eq_comm (a := w)]
  all_goals simp [*]

end Sys2Proof
end

section
/-! The step (spec R100, R104, R106, R265): every operation answers, an `Unknown` word halts, an instruction that does
not redirect PC advances it, and the input is read by the four instructions of R236 alone. -/

namespace Sys2Proof.Machine

/-! ### Every operation answers -/

/-- A body that raises a halt answers too: the halt is a next state (R265). -/
theorem orHalt_answers (s : State) (body : Except HaltReason State) : ∃ t, orHalt s body = .next t := by
  cases body with
  | ok t => exact ⟨t, rfl⟩
  | error r => exact ⟨takeHalt r s, rfl⟩

/-- No instruction faults or is refused. The first case is the instructions that can halt (R261). -/
theorem exec_answers (i : Instr) (s : State) : ∃ t, exec i s = .next t := by
  cases i with
  | ret | call | drw | skp | sknp | ldFVx | ldBVx | ldMemVx | ldVxMem => exact orHalt_answers s _
  | _ => exact ⟨_, rfl⟩

theorem stepWith_answers (inp : StepInput) (s : State) : ∃ t, stepWith inp s = .next t := by
  unfold stepWith
  cases s.run with
  | halted => exact ⟨s, rfl⟩
  | running =>
    cases fetchInstr (sample inp s) with
    | error r => exact ⟨_, rfl⟩
    | ok i =>
      obtain ⟨t, ht⟩ := exec_answers i (sample inp s)
      exact ⟨settleAwaiting i t, congrArg (afterExec i) ht⟩

/-- Settles O14, by the host's operation: a tick always answers, and so does a step, whether it halts or not. -/
theorem everyOperationAnswers : Obligations.EveryOperationAnswers := by
  intro s
  unfold step
  cases (nextOp s).1 with
  | tick => exact ⟨_, rfl⟩
  | step inp => exact stepWith_answers inp _

/-! ### PC of an instruction that does not redirect it -/

/-- The key wait advances with a key and holds with none (R240; D18). -/
theorem keyWait_pc (x : Nibble) (s : State) :
    (keyWait x s).pc = if s.input.lastKey = none then s.pc else s.pc + 2 := by
  unfold keyWait
  split <;> simp [*]

/-- A block write leaves PC alone: it writes memory only. -/
theorem writeBlock_pc {bs : List Byte} {k : Nat} {s t : State} (h : writeBlock k bs s = .ok t) : t.pc = s.pc := by
  obtain ⟨m, rfl⟩ := writeBlock_fields bs k s t h
  rfl

/-- An instruction that does not redirect PC halts, or ends with Advance (R104), but for the key wait. -/
theorem exec_pc_of_not_redirectsPc {i : Instr} {s t : State} (hi : redirectsPc i = false) (h : exec i s = .next t) :
    (∃ r, t = takeHalt r s) ∨ t.pc = if isKeyWait i = true ∧ s.input.lastKey = none then s.pc else s.pc + 2 := by
  cases i with
  | ret | jp | call | jpV0 | seImm | sneImm | seReg | sneReg | skp | sknp => cases hi
  | ldVxK x => cases h; exact .inr (by simp [isKeyWait, keyWait_pc])
  | ldFVx | drw | ldVxMem =>
    refine orHalt_imp (P := fun u => u.pc = s.pc + 2) (fun u hu => ?_) h
    split at hu <;> cases hu
    simp
  | ldBVx | ldMemVx =>
    refine orHalt_imp (P := fun u => u.pc = s.pc + 2) (fun u hu => ?_) h
    split at hu <;> cases hu
    simp [writeBlock_pc ‹_›]
  | _ => cases h; exact .inr (by simp [isKeyWait])

/-- Settles O15: an instruction that completes is not the halt of `exec_pc_of_not_redirectsPc`. -/
theorem plainInstructionsAdvanceByTwo : Obligations.PlainInstructionsAdvanceByTwo := by
  intro i s t hi _ h ht
  refine (exec_pc_of_not_redirectsPc hi h).resolve_left ?_
  rintro ⟨r, rfl⟩
  cases ht

/-! ### The input -/

/-- ST has one writer (R28). -/
theorem exec_st {i : Instr} {s t : State} (hi : setsSt i = false) (h : exec i s = .next t) : t.st = s.st := by
  obtain ⟨r, rfl⟩ | hframe := exec_sameExcept h
  · rfl
  · refine hframe .st ?_
    cases i with
    | ldStVx => cases hi
    | _ => simp [MayWrite, Part.InBlock]

/-- No instruction writes the program end (R36). -/
theorem exec_progEnd {i : Instr} {s t : State} (h : exec i s = .next t) : t.progEnd = s.progEnd := by
  obtain ⟨r, rfl⟩ | hc := exec_cases h
  · rfl
  · exact hc.progEnd

/-- Settles O27: FX18 does not look at the input; every other instruction commutes with changing the parts of
`State.withUnread`, and here ST and the program end keep their values. -/
theorem onlyFourInstructionsReadTheInput : Obligations.OnlyFourInstructionsReadTheInput := by
  intro i s t inp hin h
  cases hi : setsSt i with
  | false =>
    have hrun := exec_withUnread s.st s.progEnd inp s hi (by simp [hin]) h
    refine hrun.trans ?_
    rw [← exec_st hi h, ← exec_progEnd h]
    rfl
  | true =>
    cases i with
    | ldStVx x => cases h; rfl
    | _ => cases hi

/-! ### An `Unknown` word -/

theorem Stepping.pc {s u : State} {inp : StepInput} (h : Stepping s inp u) : u.pc = s.pc := by
  obtain ⟨_, ⟨_, _, rfl⟩ | ⟨_, _, rfl⟩⟩ := h <;> rfl

/-- An `Unknown` word at PC raises its halt in the fetch (R106). -/
theorem fetchInstr_unknown {s : State} {w w' : Word} (hw : WordAtPc s w) (hd : decodeWord w = .unknown w') :
    fetchInstr s = .error (.unknownInstruction w') := by
  rw [fetchInstr_of_word hw.1, packWord_of_wordAtPc hw, hd]

/-- Settles O8: the step is the halt of its fetch, which keeps PC and is what the result reads (R102, R265). -/
theorem unknownWordHalts : Obligations.UnknownWordHalts := by
  intro s u inp w hu hw hd
  refine ⟨takeHalt (.unknownInstruction w) u, ?_, rfl, hu.pc, rfl⟩
  rw [step_of_stepping hu, fetchInstr_unknown hw hd]

end Sys2Proof.Machine
end

section
/-! The three instructions that use a register as a 4-bit index (spec R108, R202, R237, R238). -/

namespace Sys2Proof.Machine

/-- NibbleIndex answers the low nibble of a value it accepts (R108). -/
theorem nibbleIndex_ok {c : Config} {v : Byte} (h : v.toNat ≤ 0x0F ∨ c.wideIndexPolicy = .lowNibble) :
    nibbleIndex c v = .ok (v.setWidth 4) := by
  obtain ⟨hok, _⟩ | ⟨_, hwide, hhalt⟩ := nibbleIndex_cases c v
  · exact hok
  · simp [hhalt, Nat.not_le_of_lt hwide] at h

/-- Above 0x0F, policy Halt raises the halt (R108). -/
theorem nibbleIndex_error {c : Config} {v : Byte} (hp : c.wideIndexPolicy = .halt) (hv : v.toNat > 0x0F) :
    nibbleIndex c v = .error (.operandOutOfRange v) := by
  obtain ⟨_, hok⟩ | ⟨herr, _⟩ := nibbleIndex_cases c v
  · simp [hp, Nat.not_le_of_lt hv] at hok
  · exact herr

/-- The low nibble of a byte, as a number. -/
theorem lowNibble_toNat (v : Byte) : (v.setWidth 4 : Nibble).toNat = v.toNat % 16 := BitVec.toNat_setWidth 4 v

/-- A skip goes over the next word or not (R104); a negated condition exchanges the two. -/
theorem skipIf_pc_eq (c : Bool) (s : State) : (skipIf c s).pc = if c = true then s.pc + 4 else s.pc + 2 := by
  cases c <;> rfl

theorem skipIf_not_pc_eq (c : Bool) (s : State) :
    (skipIf (!c) s).pc = if c = true then s.pc + 2 else s.pc + 4 := by
  cases c <;> rfl

/-- A skip writes PC and nothing else (R144). -/
theorem skipIf_sameExcept (c : Bool) (s : State) : SameExcept (· = .pc) s (skipIf c s) :=
  SameExcept.withPc (SameExcept.refl (· = .pc) s) rfl _

/-- Settles O36: both instructions skip by the key of the low nibble, EX9E when it is down and EXA1 when it is up. -/
theorem keySkipsTestTheKey : Obligations.KeySkipsTestTheKey := by
  intro s x k hv hk
  obtain rfl : k = (s.reg x).setWidth 4 := BitVec.eq_of_toNat_eq (hk.trans (lowNibble_toNat _).symm)
  have hskp : exec (.skp x) s = .next (skipIf (keyDown s ((s.reg x).setWidth 4)) s) := by
    rw [exec, execSkp, nibbleIndex_ok hv, orHalt_ok]
  have hsknp : exec (.sknp x) s = .next (skipIf (!keyDown s ((s.reg x).setWidth 4)) s) := by
    rw [exec, execSknp, nibbleIndex_ok hv, orHalt_ok]
  exact ⟨⟨_, hskp, skipIf_pc_eq _ s, skipIf_sameExcept _ s⟩, ⟨_, hsknp, skipIf_not_pc_eq _ s, skipIf_sameExcept _ s⟩⟩

/-- Settles O37: each of the three asks NibbleIndex first, and its halt is the instruction's (R108, R265). -/
theorem wideIndexHaltsUnderPolicyHalt : Obligations.WideIndexHaltsUnderPolicyHalt := by
  intro s x i hp hv hi
  have herr := nibbleIndex_error hp hv
  simp only [List.mem_cons, List.not_mem_nil, or_false] at hi
  obtain rfl | rfl | rfl := hi
  · rw [exec, execSkp, herr]; rfl
  · rw [exec, execSknp, herr]; rfl
  · rw [exec, execLdFVx, herr]; rfl

/-- In an admitted configuration the font lies below 0x1000, so no glyph's address wraps (R8, R53, R202). -/
theorem glyphAddress_toNat {c : Config} (hadm : c.admitted = true) (d : Nibble) :
    (glyphAddress c d).toNat = c.fontBase + 5 * d.toNat := by
  obtain ⟨hfont, hload, _⟩ := (admitted_iff c).mp hadm
  have hd := d.isLt
  refine toNat_ofNat_of_le_memSize ?_
  rw [memSize_eq]
  omega

/-- Settles O47: I is the address of the low nibble's glyph, and I and PC are the only updates. -/
theorem loadGlyphAddress : Obligations.LoadGlyphAddress := by
  intro s x hv hadm
  have hexec : exec (.ldFVx x) s = .next (advance { s with i := glyphAddress s.cfg ((s.reg x).setWidth 4) }) := by
    rw [exec, execLdFVx, nibbleIndex_ok hv, orHalt_ok]
  refine ⟨_, hexec, ?_, ((SameExcept.refl _ s).withI (by simp) _).withPc (by simp) _⟩
  rw [advance_i, glyphAddress_toNat hadm, lowNibble_toNat]

end Sys2Proof.Machine
end

section
/-! The display (spec R120 to R126). DRW draws the rows its block holds; their 1 bits cover distinct cells, so each
covered cell is inverted once. -/

namespace Sys2Proof.Machine

/-! ### CLS -/

/-- PC two further on is what `Advanced` asks: short of the wrap, the sum does not overflow (R104; D3). -/
theorem advanced_of_pc {s t : State} (h : t.pc = s.pc + 2) : Advanced s t := by
  intro hlt
  rw [h]
  exact (BitVec.toNat_add s.pc 2).trans (Nat.mod_eq_of_lt hlt)

/-- Settles O55: the framebuffer and PC are the only updates (R120). -/
theorem clsClearsEveryPixel : Obligations.ClsClearsEveryPixel := by
  refine fun s => ⟨_, rfl, clear_pixel, advanced_of_pc rfl, ?_⟩
  exact ((SameExcept.refl _ s).withFrame (fun x y => .inr ⟨x, y, rfl⟩) _).withPc (.inl rfl) _

/-! ### One drawing -/

/-- The rows DXYN draws: `n` bytes from `EA(I, 0)` on (R122). -/
def spriteRows (s : State) (n : Nat) : List Byte := (List.range n).map fun r => s.byteAt (ea s.i r)

@[simp] theorem spriteRows_length (s : State) (n : Nat) : (spriteRows s n).length = n := by
  simp [spriteRows]

@[simp] theorem spriteRows_getElem (s : State) (n r : Nat) (h : r < (spriteRows s n).length) :
    (spriteRows s n)[r] = s.byteAt (ea s.i r) := by
  simp [spriteRows]

/-- A sprite whose rows lie in memory is drawn from them (R122, R124). -/
theorem exec_drw_ok {s : State} {x y n : Nibble} (h : ea s.i n.toNat ≤ 4096) :
    exec (.drw x y n) s = .next (advance (drawAndFlag x y (spriteRows s n.toNat) s)) := by
  have hlast : n.toNat = 0 ∨ ea s.i (0 + n.toNat - 1) < memSize := by
    rw [memSize_eq]
    simp only [ea] at h ⊢
    omega
  have hrows : readBlock s 0 n.toNat = .ok (spriteRows s n.toNat) := by
    simpa only [spriteRows, Nat.zero_add] using readBlock_ok n.toNat 0 hlast
  rw [exec, execDrw, hrows, orHalt_ok]

/-- The cells drawn are the covered ones (R121). -/
theorem mem_spriteCells_spriteRows {s : State} {x0 y0 : Byte} {n : Nat} {px : Fin 64} {py : Fin 32} :
    (px, py) ∈ spriteCells x0 y0 0 (spriteRows s n) ↔ Covered s x0 y0 n px py := by
  rw [mem_spriteCells]
  simp only [spriteRows_getElem, spriteRows_length, exists_prop, Nat.zero_add, Prod.ext_iff, Fin.ext_iff,
    spriteCell_fst, spriteCell_snd, spriteBit, Covered]

/-- A drawing changes exactly the pixels of its cells (R122, R126). -/
theorem drawSprite_pixel_eq_iff {x0 y0 : Byte} {rows : List Byte} (hlen : rows.length ≤ 32) (f : Frame) (px : Fin 64)
    (py : Fin 32) : (drawSprite x0 y0 rows f).1.pixel px py = f.pixel px py ↔ (px, py) ∉ spriteCells x0 y0 0 rows := by
  rw [drawSprite, (foldl_drawCell _ f false (nodup_spriteCells x0 y0 rows 0 hlen)).1]
  cases f.pixel px py <;> simp

/-- A drawing collides exactly when one of its cells was lit (R123). -/
theorem drawSprite_collision_iff {x0 y0 : Byte} {rows : List Byte} (hlen : rows.length ≤ 32) (f : Frame) :
    (drawSprite x0 y0 rows f).2 = true ↔ ∃ px py, (px, py) ∈ spriteCells x0 y0 0 rows ∧ f.pixel px py = true := by
  rw [drawSprite, (foldl_drawCell _ f false (nodup_spriteCells x0 y0 rows 0 hlen)).2]
  simp

/-- Settles O56: the cells of the rows are the covered ones, and VF is written with the collision over them. -/
theorem drawXorsAndReportsCollision : Obligations.DrawXorsAndReportsCollision := by
  intro s x y n h
  have hlen : (spriteRows s n.toNat).length ≤ 32 := by
    have hn := n.isLt
    rw [spriteRows_length]
    omega
  have hcollision := drawSprite_collision_iff (x0 := s.reg x) (y0 := s.reg y) hlen s.fb
  simp only [mem_spriteCells_spriteRows] at hcollision
  have hflag : (drawAndFlag x y (spriteRows s n.toNat) s).reg 0xF =
      flagByte (drawSprite (s.reg x) (s.reg y) (spriteRows s n.toNat) s.fb).2 := drawAndFlag_reg x y vF _ s
  refine ⟨_, exec_drw_ok h, fun px py => ?_, fun hlit => ?_, fun hdark => ?_, ?_⟩
  · exact (drawSprite_pixel_eq_iff hlen s.fb px py).trans (not_congr mem_spriteCells_spriteRows)
  · rw [advance_reg, hflag, hcollision.mpr hlit]
    rfl
  · rw [advance_reg, hflag, Bool.eq_false_iff.mpr (mt hcollision.mp hdark)]
    rfl
  · exact ((SameExcept.refl _ s).withDrawing (by simp [vF]) (fun px py => .inr ⟨px, py, rfl⟩) x y _).withPc (by simp) _

/-! ### Two drawings -/

/-- What a sprite covers is read off I and memory alone. -/
theorem covered_congr {s t : State} (hi : t.i = s.i) (hbytes : ∀ a, t.byteAt a = s.byteAt a) (x0 y0 : Byte) (n : Nat)
    (px : Fin 64) (py : Fin 32) : Covered t x0 y0 n px py ↔ Covered s x0 y0 n px py := by
  simp only [Covered, hi, hbytes]

/-- A pixel that is kept exactly when its cell is not covered is inverted when it is. -/
theorem eq_not_of_covered {before after : Bool} {covered : Prop} (hpixel : after = before ↔ ¬ covered)
    (hcov : covered) : after = !before :=
  Bool.eq_not.mpr fun heq => hpixel.mp heq hcov

/-- Settles O57 from O56: the first drawing keeps I, memory and the coordinates, so the second covers the same cells.
A covered cell is changed twice, and is lit before one of the two. -/
theorem drawingTwiceRestoresTheFrame : Obligations.DrawingTwiceRestoresTheFrame := by
  intro s x y n h hx hy
  obtain ⟨t, hexec, hpixel, hlit, _, hframe⟩ := drawXorsAndReportsCollision s x y n h
  have hi : t.i = s.i := hframe .i (by simp)
  have hbytes : ∀ a, t.byteAt a = s.byteAt a := fun a => hframe (.byte a) (by simp)
  have hregx : t.reg x = s.reg x := hframe (.reg x) (by simpa using hx)
  have hregy : t.reg y = s.reg y := hframe (.reg y) (by simpa using hy)
  obtain ⟨u, hexec', hpixel', hlit', _⟩ := drawXorsAndReportsCollision t x y n (by rwa [hi])
  simp only [hregx, hregy, covered_congr hi hbytes] at hpixel' hlit'
  refine ⟨t, u, hexec, hexec', fun px py => ?_, ?_⟩
  · by_cases hcov : Covered s (s.reg x) (s.reg y) n.toNat px py
    · rw [eq_not_of_covered (hpixel' px py) hcov, eq_not_of_covered (hpixel px py) hcov, Bool.not_not]
    · exact ((hpixel' px py).mpr hcov).trans ((hpixel px py).mpr hcov)
  · rintro ⟨px, py, hcov⟩
    cases hs : s.fb.pixel px py with
    | true => exact .inl (hlit ⟨px, py, hcov, hs⟩)
    | false => exact .inr (hlit' ⟨px, py, hcov, by rw [eq_not_of_covered (hpixel px py) hcov, hs, Bool.not_false]⟩)

end Sys2Proof.Machine
end

section
/-! Control flow (spec R140 to R148): each instruction is equated with the jump or the skip it makes, and PC, the stack
and the frame are read off that state. -/

namespace Sys2Proof.Machine

/-! ### Jumps -/

/-- A jump writes PC and nothing else (R104). -/
theorem jumpTo_sameExcept (w : Word) (s : State) : SameExcept (· = .pc) s (jumpTo w s) :=
  SameExcept.withPc (SameExcept.refl (· = .pc) s) rfl w

/-- Settles O31: the target is zero-extended, which keeps its number (R141). -/
theorem jpGoesToItsTarget : Obligations.JpGoesToItsTarget := fun s nnn =>
  ⟨jumpTo (nnn.setWidth 16) s, rfl, BitVec.toNat_setWidth_of_le (by decide), jumpTo_sameExcept _ s⟩

/-- A 12-bit target and an 8-bit register, zero-extended, sum within 16 bits (R143). -/
theorem toNat_addr12_add_byte (nnn : Addr12) (b : Byte) :
    (nnn.setWidth 16 + b.setWidth 16 : Word).toNat = nnn.toNat + b.toNat := by
  have hn := nnn.isLt
  have hb := b.isLt
  rw [BitVec.toNat_add_of_lt] <;> simp only [BitVec.toNat_setWidth] <;> omega

/-- Settles O32: the sum does not overflow PC, so storing it unmasked stores it whole (R143). -/
theorem jpV0AddsV0 : Obligations.JpV0AddsV0 := fun s nnn =>
  ⟨jumpTo (nnn.setWidth 16 + (s.reg 0).setWidth 16) s, rfl, toNat_addr12_add_byte nnn (s.reg 0), jumpTo_sameExcept _ s⟩

/-! ### Calls and returns -/

/-- With room, CALL pushes the address after it and jumps (R142). -/
theorem exec_call_ok {s : State} (nnn : Addr12) (hroom : s.stack.length < s.cfg.stackDepth) :
    exec (.call nnn) s = .next (jumpTo (nnn.setWidth 16) { s with stack := s.stack ++ [s.pc + 2] }) := by
  rw [exec, execCall, push_ok hroom, orHalt_ok]

/-- On a full stack, CALL halts (R142). -/
theorem exec_call_full {s : State} (nnn : Addr12) (hfull : s.cfg.stackDepth ≤ s.stack.length) :
    exec (.call nnn) s = .next (takeHalt .stackOverflow s) := by
  rw [exec, execCall, push_error hfull, orHalt_error]

/-- RET removes the last entry and jumps to it (R140). -/
theorem exec_ret_concat {s : State} {st : List Word} {a : Word} (hs : s.stack = st ++ [a]) :
    exec .ret s = .next (jumpTo a { s with stack := st }) := by
  rw [exec, execRet, pop_concat hs, orHalt_ok]

/-- On an empty stack, RET halts (R140). -/
theorem exec_ret_nil {s : State} (hs : s.stack = []) : exec .ret s = .next (takeHalt .stackUnderflow s) := by
  rw [exec, execRet, pop_nil hs, orHalt_error]

/-- A jump with a new stack writes PC and the stack and nothing else: the frame of CALL and of RET. -/
theorem jumpTo_withStack_sameExcept (w : Word) (st : List Word) (s : State) :
    SameExcept (· ∈ [.pc, .stack]) s (jumpTo w { s with stack := st }) :=
  ((SameExcept.refl _ s).withStack (by simp) st).withPc (by simp) w

/-- Settles O34: CALL leaves the address after it last, and RET takes just that entry off, so the stack of `s` is
restored and PC is the one part that differs. -/
theorem callThenRetResumesAfterTheCall : Obligations.CallThenRetResumesAfterTheCall := fun s nnn hroom =>
  ⟨_, jumpTo (s.pc + 2) s, exec_call_ok nnn hroom, exec_ret_concat (st := s.stack) rfl, rfl, jumpTo_sameExcept _ s⟩

/-- Settles O30: RET pops the last entry, or halts when there is none. -/
theorem retGoesToThePoppedAddress : Obligations.RetGoesToThePoppedAddress := fun s st a =>
  ⟨fun hs => ⟨_, exec_ret_concat hs, rfl, rfl, jumpTo_withStack_sameExcept a st s⟩,
    fun hs => ⟨_, exec_ret_nil hs, rfl, rfl⟩⟩

/-- Settles O33: CALL pushes while there is room, and its overflow is the halt of the state before it (R265). -/
theorem callPushesAndJumps : Obligations.CallPushesAndJumps := fun s nnn =>
  ⟨fun hroom => ⟨_, exec_call_ok nnn hroom, BitVec.toNat_setWidth_of_le (by decide), rfl,
      jumpTo_withStack_sameExcept _ _ s⟩,
    fun hfull => ⟨_, exec_call_full nnn hfull.ge, rfl, rfl, takeHalt_sameExcept _ s⟩⟩

/-! ### Register skips -/

/-- A skip on a comparison goes over the next word when it holds (R104, R144). -/
theorem skipIf_decide_pc (p : Prop) [Decidable p] (s : State) :
    (skipIf (decide p) s).pc = if p then s.pc + 4 else s.pc + 2 := by
  simp only [skipIf_pc_eq, decide_eq_true_eq]

/-- A skip on a comparison that fails exchanges the two targets (R146, R148). -/
theorem skipIf_decide_not_pc (p : Prop) [Decidable p] (s : State) :
    (skipIf (decide (¬ p)) s).pc = if p then s.pc + 2 else s.pc + 4 := by
  rw [skipIf_decide_pc, ite_not]

/-- Settles O35: 3XNN and 5XY0 skip when the operands are equal, 4XNN and 9XY0 when they are not (R145 to R148). -/
theorem skipsCompareAndSkip : Obligations.SkipsCompareAndSkip := fun s x y kk =>
  ⟨⟨_, rfl, skipIf_decide_pc (s.reg x = kk) s, skipIf_sameExcept _ s⟩,
    ⟨_, rfl, skipIf_decide_not_pc (s.reg x = kk) s, skipIf_sameExcept _ s⟩,
    ⟨_, rfl, skipIf_decide_pc (s.reg x = s.reg y) s, skipIf_sameExcept _ s⟩,
    ⟨_, rfl, skipIf_decide_not_pc (s.reg x = s.reg y) s, skipIf_sameExcept _ s⟩⟩

end Sys2Proof.Machine
end

section
/-! Loads, arithmetic, logic, shifts and random (spec 43): each result and flag is the arithmetic the statements name,
and each of the three shapes of update (one register, a result with LogicFlag, a result with a flag) is read once. -/

namespace Sys2Proof.Machine

/-! ### Results and flags as bit vector arithmetic -/

/-- The sum computed on naturals and truncated is the wrapped sum (R170, R180). -/
theorem sum8_eq (a b : Byte) : sum8 a b = a + b := rfl

/-- Adding 256 before the subtraction keeps it on naturals, and the truncation takes it off again (R170, R181). -/
theorem difference8_eq (a b : Byte) : difference8 a b = a - b := by
  have hb := b.isLt
  refine BitVec.eq_of_toNat_eq ?_
  rw [difference8, BitVec.toNat_ofNat, BitVec.toNat_sub]
  omega

/-- Halving is a shift to the right by one (R182). -/
theorem shiftedRight_eq (v : Byte) : shiftedRight v = v >>> 1 := by
  have hv := v.isLt
  refine BitVec.eq_of_toNat_eq ?_
  rw [shiftedRight, BitVec.toNat_ofNat, BitVec.toNat_ushiftRight, Nat.shiftRight_eq_div_pow]
  omega

/-- Doubling, truncated, is a shift to the left by one (R184). -/
theorem shiftedLeft_eq (v : Byte) : shiftedLeft v = v <<< 1 := by
  refine BitVec.eq_of_toNat_eq ?_
  rw [shiftedLeft, BitVec.toNat_ofNat, BitVec.toNat_shiftLeft, Nat.shiftLeft_eq]

theorem flagByte_toNat (b : Bool) : (flagByte b).toNat = b.toNat := by cases b <;> rfl

theorem flagByte_decide (p : Prop) [Decidable p] : flagByte (decide p) = if p then 1 else 0 := by
  simp only [flagByte, decide_eq_true_eq]

theorem carryFlag_eq (a b : Byte) : carryFlag a b = if a.toNat + b.toNat > 0xFF then 1 else 0 := flagByte_decide _

theorem noBorrowFlag_eq (a b : Byte) : noBorrowFlag a b = if b.toNat ≤ a.toNat then 1 else 0 := flagByte_decide _

/-- The bit a right shift drops is the byte with all but bit 0 cleared (R182). -/
theorem droppedLow_eq (v : Byte) : droppedLow v = v &&& 1 := by
  refine BitVec.eq_of_toNat_eq ?_
  rw [droppedLow, flagByte_toNat, BitVec.getLsbD, Nat.toNat_testBit, Nat.pow_zero, Nat.div_one, BitVec.toNat_and]
  exact (Nat.and_one_is_mod _).symm

/-- The bit a left shift drops is what is left of the byte above bit 6 (R184). -/
theorem droppedHigh_eq (v : Byte) : droppedHigh v = v >>> 7 := by
  have hv := v.isLt
  refine BitVec.eq_of_toNat_eq ?_
  rw [droppedHigh, flagByte_toNat, BitVec.getLsbD, Nat.toNat_testBit, BitVec.toNat_ushiftRight,
    Nat.shiftRight_eq_div_pow]
  omega

/-- The source of a shift is the operand that SHIFT_SOURCE names (R176). -/
theorem shiftSrc_eq {c : Config} {x y src : Nibble}
    (h : (c.shiftSource = .x ∧ src = x) ∨ (c.shiftSource = .y ∧ src = y)) : shiftSrc c x y = src := by
  obtain ⟨hc, rfl⟩ | ⟨hc, rfl⟩ := h <;> rw [shiftSrc, hc]

/-! ### The three shapes of update -/

/-- A register and PC are all that a load writes (R173, R104). -/
theorem advance_setReg_sameExcept (s : State) (x : Nibble) (b : Byte) :
    SameExcept (· ∈ [.pc, .reg x]) s (advance (s.setReg x b)) :=
  ((SameExcept.refl _ s).withReg (by simp) b).withPc (by simp) _

theorem advance_setReg_reg (s : State) (x : Nibble) (b : Byte) : (advance (s.setReg x b)).reg x = b := by simp

/-- A result followed by LogicFlag and Advance: the values, PC and the frame of OR, AND and XOR (R176, R177). -/
theorem advance_logicFlag_spec (s : State) (x : Nibble) (r : Byte) :
    LogicResult s (advance (logicFlag (s.setReg x r))) x r ∧ Advanced s (advance (logicFlag (s.setReg x r))) ∧
      SameExcept (· ∈ [.pc, .reg x, .reg 0xF]) s (advance (logicFlag (s.setReg x r))) := by
  refine ⟨⟨fun hx => ?_, fun hreset => ?_, fun hkeep => ?_⟩, advanced_of_pc (by simp), ?_⟩
  · have hx : x ≠ vF := hx
    simp [logicFlag_reg, hx]
  · simp [logicFlag_reg, vF, hreset]
  · simp [logicFlag_reg, hkeep, eq_comm]
  · exact (((SameExcept.refl _ s).withReg (by simp) r).withLogicFlag fun _ => by simp [vF]).withPc (by simp) _

/-- A result and a flag followed by Advance: the values, PC and the frame of the flagged instructions (R171). -/
theorem advance_writeFlagged_spec (s : State) (x : Nibble) (r f : Byte) (o : AluVfOrder) :
    ResultAndFlag (advance (writeFlagged x r f o s)) x o r f ∧ Advanced s (advance (writeFlagged x r f o s)) ∧
      SameExcept (· ∈ [.pc, .reg x, .reg 0xF]) s (advance (writeFlagged x r f o s)) := by
  refine ⟨⟨fun hx => ⟨?_, ?_⟩, fun hx => ?_⟩, advanced_of_pc (by simp), ?_⟩
  · exact (writeFlagged_reg x x r f o s).trans (if_pos ⟨rfl, fun e => absurd e hx⟩)
  · exact (writeFlagged_reg x vF r f o s).trans ((if_neg fun h => hx h.1.symm).trans (if_pos rfl))
  · cases o <;> simp [writeFlagged_reg, vF, hx]
  · exact ((SameExcept.refl _ s).withFlagged (by simp) (by simp [vF]) r f o).withPc (by simp) _

/-! ### Loads, immediate addition and random -/

/-- Settles O38: both are one register write, of the constant or of the old Vy. -/
theorem loadsWriteVx : Obligations.LoadsWriteVx := fun s x y kk =>
  ⟨⟨_, rfl, advance_setReg_reg s x kk, advanced_of_pc rfl, advance_setReg_sameExcept s x kk⟩,
    ⟨_, rfl, advance_setReg_reg s x (s.reg y), advanced_of_pc rfl, advance_setReg_sameExcept s x _⟩⟩

/-- Settles O39: one register write, of the truncated sum. -/
theorem addImmediateWrapsWithoutFlag : Obligations.AddImmediateWrapsWithoutFlag := by
  refine fun s x kk => ⟨_, rfl, ?_, advance_setReg_sameExcept s x _⟩
  rw [advance_setReg_reg, sum8_eq, BitVec.toNat_add]

/-- Settles O44: one register write, of the masked byte of the input. -/
theorem randomIsMasked : Obligations.RandomIsMasked := fun s x kk =>
  ⟨_, rfl, advance_setReg_reg s x (s.input.rnd &&& kk), advance_setReg_sameExcept s x _⟩

/-! ### Logic -/

/-- Settles O40: the three differ in the result alone. -/
theorem logicInstructionsCombineBits : Obligations.LogicInstructionsCombineBits := fun s x y =>
  ⟨⟨_, rfl, advance_logicFlag_spec s x (s.reg x ||| s.reg y)⟩,
    ⟨_, rfl, advance_logicFlag_spec s x (s.reg x &&& s.reg y)⟩,
    ⟨_, rfl, advance_logicFlag_spec s x (s.reg x ^^^ s.reg y)⟩⟩

/-! ### Flagged arithmetic and shifts -/

/-- Settles O41: the flagged write of the wrapped sum and its carry. -/
theorem addSetsCarry : Obligations.AddSetsCarry := by
  intro s x y
  rw [← sum8_eq, ← carryFlag_eq]
  exact ⟨_, rfl, advance_writeFlagged_spec s x _ _ _⟩

/-- Settles O42: SUBN is SUB with the operands exchanged. -/
theorem subtractsSetNoBorrow : Obligations.SubtractsSetNoBorrow := by
  intro s x y
  simp only [← difference8_eq, ← noBorrowFlag_eq]
  exact ⟨⟨_, rfl, advance_writeFlagged_spec s x _ _ _⟩, ⟨_, rfl, advance_writeFlagged_spec s x _ _ _⟩⟩

/-- Settles O43: both are flagged writes in the order FlagFirst, of the shifted source and its dropped bit. -/
theorem shiftsDropOneBitIntoVf : Obligations.ShiftsDropOneBitIntoVf := by
  intro s x y src hsrc
  obtain rfl := shiftSrc_eq hsrc
  rw [← shiftedRight_eq, ← droppedLow_eq, ← shiftedLeft_eq, ← droppedHigh_eq]
  exact ⟨⟨_, rfl, advance_writeFlagged_spec s x _ _ _⟩, ⟨_, rfl, advance_writeFlagged_spec s x _ _ _⟩⟩

end Sys2Proof.Machine
end

section
/-! The index register, BCD and the register blocks (spec 44). FX33 and FX55 write one block that completes, FX65 reads
one; what a completed block leaves is said once, and FX65 loads back what FX55 stored. -/

namespace Sys2Proof.Machine

/-! ### The index register -/

/-- I and PC are all that the index instructions write (R200, R201). -/
theorem advance_withI_sameExcept (s : State) (w : Word) :
    SameExcept (· ∈ [.pc, .i]) s (advance { s with i := w }) :=
  ((SameExcept.refl _ s).withI (by simp) w).withPc (by simp) _

/-- Settles O45: zero-extending the 12-bit constant keeps its number (R200). -/
theorem loadIndexWritesI : Obligations.LoadIndexWritesI := fun s nnn =>
  ⟨_, rfl, BitVec.toNat_setWidth_of_le (by decide), advanced_of_pc rfl, advance_withI_sameExcept s _⟩

/-- Settles O46: the 16-bit sum wraps and nothing masks it (R201). -/
theorem addIndexWrapsAt65536 : Obligations.AddIndexWrapsAt65536 := by
  refine fun s x => ⟨advance { s with i := s.i + (s.reg x).setWidth 16 }, rfl, ?_, advance_withI_sameExcept s _⟩
  rw [advance_i, BitVec.toNat_add, BitVec.toNat_setWidth_of_le (by decide)]

/-- I after FX55 and FX65, as a number: past the block under `LDST_INCREMENT_I`, modulo 65536 (R204, R205). -/
theorem bumpIndex_i_toNat (x : Nibble) (s : State) : (bumpIndex x s).i.toNat =
    if s.cfg.ldstIncrementI = true then (s.i.toNat + x.toNat + 1) % 65536 else s.i.toNat := by
  rw [bumpIndex_i, apply_ite BitVec.toNat, BitVec.toNat_ofNat]

/-! ### Stores -/

/-- A block with no bad address is written: memory alone changes, only inside the block, and each byte of the block
holds what was stored (R55, R58). -/
theorem writeBlock_stores {s : State} {bs : List Byte} (hm : Memory.wf s.cfg s.mem = true)
    (hgood : ∀ k, k < bs.length → ¬ badWrite s.cfg (ea s.i k)) :
    ∃ m, writeBlock 0 bs s = .ok { s with mem := m } ∧
      (∀ k (hk : k < bs.length), Memory.read s.cfg m (ea s.i k) = afterWrite s (ea s.i k) bs[k]) ∧
      SameExcept (·.InBlock s bs.length) s { s with mem := m } := by
  obtain ⟨t, ht⟩ := writeBlock_ok bs 0 s fun k hk => by rw [Nat.zero_add]; exact hgood k hk
  have hbytes := writeBlock_byteAt bs 0 s t
  have hframe := writeBlock_sameExcept ht (may := (·.InBlock s bs.length)) fun k hk => ⟨k, hk, rfl⟩
  obtain ⟨m, rfl⟩ := writeBlock_fields bs 0 s t ht
  refine ⟨m, ht, fun k hk => ?_, hframe⟩
  have hbyte := hbytes k hk ht hm
  rwa [Nat.zero_add] at hbyte

@[simp] theorem bcdDigits_length (v : Byte) : (bcdDigits v).length = 3 := rfl

/-- Settles O48: the three bytes stored are the quotients of Vx by 100, 10 and 1, each without the higher digits
(R203). -/
theorem bcdStoresDecimalDigits : Obligations.BcdStoresDecimalDigits := by
  intro s x hm hgood
  have hv := (s.reg x).isLt
  obtain ⟨m, hok, hbytes, hframe⟩ := writeBlock_stores (bs := bcdDigits (s.reg x)) hm hgood
  refine ⟨advance { s with mem := m }, (s.reg x).toNat / 100, (s.reg x).toNat / 10 % 10, (s.reg x).toNat % 10,
    by rw [exec, execLdBVx, hok, orHalt_ok], by omega, by omega, by omega, by omega,
    hbytes 0 (by simp), hbytes 1 (by simp), hbytes 2 (by simp), ?_⟩
  exact (hframe.mono fun _ => .inr).withPc (.inl rfl) _

/-- Settles O49: the block written is the list of V0 to Vx, and I moves after it (R204). -/
theorem dumpStoresTheRegisters : Obligations.DumpStoresTheRegisters := by
  intro s x hm hgood
  have hlen := regsUpTo_length s x
  obtain ⟨m, hok, hbytes, hframe⟩ := writeBlock_stores (bs := s.regsUpTo x) hm fun k hk =>
    hgood k (Nat.le_of_lt_succ (hk.trans_eq hlen))
  rw [hlen] at hframe
  refine ⟨advance (bumpIndex x { s with mem := m }), by rw [exec, execLdMemVx, hok, orHalt_ok], fun k hk => ?_,
    bumpIndex_i_toNat x _, ((hframe.mono fun _ => .inr).withBump x fun _ => by simp).withPc (by simp) _⟩
  have hbyte := hbytes k.toNat ((Nat.lt_succ_of_le hk).trans_eq hlen.symm)
  rw [regsUpTo_getElem, BitVec.ofNat_toNat, BitVec.setWidth_eq] at hbyte
  rwa [advance_byteAt, bumpIndex_byteAt]

/-! ### Loads -/

/-- The bytes of a block in memory, set into the registers from V0 on (R205). -/
theorem setRegs_block_reg (s : State) (x k : Nibble) :
    (s.setRegs 0 ((List.range (x.toNat + 1)).map fun j => s.byteAt (ea s.i j))).reg k =
      if k.toNat ≤ x.toNat then s.byteAt (ea s.i k.toNat) else s.reg k := by
  simp [setRegs_reg]

/-- FX65 of a block whose last address lies in memory sets its bytes into V0 to Vx (R205). -/
theorem exec_ldVxMem_ok {s : State} {x : Nibble} (h : ea s.i x.toNat < memSize) :
    exec (.ldVxMem x) s = .next (advance (bumpIndex x
      (s.setRegs 0 ((List.range (x.toNat + 1)).map fun j => s.byteAt (ea s.i j))))) := by
  have hread := readBlock_ok (s := s) (x.toNat + 1) 0 (.inr (by rwa [Nat.zero_add]))
  simp only [Nat.zero_add] at hread
  rw [exec, execLdVxMem, hread, orHalt_ok]

/-- Settles O51: the registers set are V0 to Vx, one for each byte of the block, and I moves after them (R205). -/
theorem loadBlockLoadsTheRegisters : Obligations.LoadBlockLoadsTheRegisters := by
  intro s x h
  refine ⟨_, exec_ldVxMem_ok h, fun k => ?_, ?_, ?_⟩
  · rw [advance_reg, bumpIndex_reg, setRegs_block_reg]
  · rw [advance_i, bumpIndex_i_toNat, setRegs_cfg, setRegs_i]
  · refine SameExcept.withPc (SameExcept.withBump ((SameExcept.refl _ s).withRegs ?_) x fun _ => by simp) (by simp) _
    intro y _ hy
    rw [Nat.zero_add, List.length_map, List.length_range] at hy
    exact .inr ⟨y, Nat.le_of_lt_succ hy, rfl⟩

/-! ### The round trip -/

/-- A byte whose address is writable, as RAM or as an unprotected font byte, holds what was stored (R55). -/
theorem afterWrite_of_writable {s : State} {a : Nat} (b : Byte)
    (h : inFont s.cfg a = true → s.cfg.fontWritePolicy = .write) : afterWrite s a b = b := by
  refine if_neg fun ⟨hfont, hignore⟩ => ?_
  rw [h hfont] at hignore
  cases hignore

/-- An address inside memory that is writable is not a bad one (R55). -/
theorem not_badWrite_of_writable {c : Config} {a : Nat} (ha : a < memSize)
    (h : inFont c a = true → c.fontWritePolicy = .write) : ¬ badWrite c a := by
  rintro (hpast | ⟨hfont, hhalt⟩)
  · exact Nat.not_le_of_lt ha hpast
  · rw [h hfont] at hhalt
    cases hhalt

/-- Settles O53 from O49 and O51: FX65 reads, at the same addresses, the bytes FX55 left there. -/
theorem dumpThenLoadRestores : Obligations.DumpThenLoadRestores := by
  intro s t x regs hm hblock hexec
  obtain ⟨t', hexec', hstored, -⟩ := dumpStoresTheRegisters s x hm fun k hk =>
    not_badWrite_of_writable (hblock k hk).1 (hblock k hk).2
  obtain rfl : t = t' := by rw [hexec] at hexec'; cases hexec'; rfl
  obtain ⟨u, hload, hloaded, -⟩ := loadBlockLoadsTheRegisters { t with i := s.i, v := regs } x (hblock _ le_rfl).1
  refine ⟨u, hload, fun k hk => ?_⟩
  calc u.reg k = t.byteAt (ea s.i k.toNat) := (hloaded k).trans (if_pos hk)
    _ = afterWrite s (ea s.i k.toNat) (s.reg k) := hstored k hk
    _ = s.reg k := afterWrite_of_writable _ (hblock _ hk).2

end Sys2Proof.Machine
end

section
/-! Keypad and timers (spec 45). The key wait has two outcomes, one equation each; the timers are single writes before
Advance. -/

namespace Sys2Proof.Machine

/-! ### The key wait -/

/-- A key as a byte keeps its number (R240). -/
theorem keyByte_toNat (k : Nibble) : (keyByte k).toNat = k.toNat :=
  BitVec.toNat_setWidth_of_le (by decide)

/-- With a key, FX0A loads it, clears the flag and advances (R240). -/
theorem exec_ldVxK_of_some {s : State} {k : Nibble} (x : Nibble) (h : s.input.lastKey = some k) :
    exec (.ldVxK x) s = .next (advance (setAwaiting false (s.setReg x (keyByte k)))) := by
  rw [exec, execLdVxK, keyWait, h]

/-- With no key, FX0A sets the flag and holds PC (R240; D18). -/
theorem exec_ldVxK_of_none {s : State} (x : Nibble) (h : s.input.lastKey = none) :
    exec (.ldVxK x) s = .next (hold (setAwaiting true s)) := by
  rw [exec, execLdVxK, keyWait, h]

/-- Settles O58, by the two outcomes of the wait: the frame of each is that of its updates. -/
theorem keyWaitLoadsOrHolds : Obligations.KeyWaitLoadsOrHolds := by
  refine fun s x => ⟨fun k hk => ⟨_, exec_ldVxK_of_some x hk, ?_, rfl, rfl, ?_⟩,
    fun hnone => ⟨_, exec_ldVxK_of_none x hnone, rfl, ?_⟩⟩
  · simp [keyByte_toNat]
  · exact (((SameExcept.refl _ s).withReg (by simp) _).withAwaiting (by simp) false).withPc (by simp) _
  · exact (SameExcept.refl (· = .awaiting) s).withAwaiting rfl true

/-! ### The timers -/

/-- DT and PC are all that FX15 writes (R242). -/
theorem advance_withDt_sameExcept (s : State) (b : Byte) :
    SameExcept (· ∈ [.pc, .dt]) s (advance { s with dt := b }) :=
  ((SameExcept.refl _ s).withDt (by simp) b).withPc (by simp) _

/-- ST and PC are all that FX18 writes (R243). -/
theorem advance_withSt_sameExcept (s : State) (b : Byte) :
    SameExcept (· ∈ [.pc, .st]) s (advance { s with st := b }) :=
  ((SameExcept.refl _ s).withSt (by simp) b).withPc (by simp) _

/-- Settles O59: FX07 is a register write of DT, FX15 and FX18 are writes of a timer (R239, R242, R243). -/
theorem timersAreReadAndSet : Obligations.TimersAreReadAndSet := fun s x =>
  ⟨⟨_, rfl, advance_setReg_reg s x s.dt, advanced_of_pc rfl, advance_setReg_sameExcept s x s.dt⟩,
    ⟨_, rfl, rfl, advanced_of_pc rfl, advance_withDt_sameExcept s (s.reg x)⟩,
    ⟨_, rfl, rfl, advanced_of_pc rfl, advance_withSt_sameExcept s (s.reg x)⟩⟩

end Sys2Proof.Machine
end

section
/-! The reasons an instruction halts for (spec R261). An instruction that can halt answers `orHalt` of a body, so its
reasons are those its shared operation raises: Pop, Push, a block read or write, NibbleIndex. -/

namespace Sys2Proof.Machine

/-- A block read from the first address on can halt past memory only (R55, R58). -/
theorem readBlock_reason {s : State} {n : Nat} {r : HaltReason} (h : readBlock s 0 n = .error r) : r.PastMemory := by
  by_cases hin : n = 0 ∨ ea s.i (0 + n - 1) < memSize
  · rw [readBlock_ok n 0 hin] at h
    cases h
  · have hpast : memSize < ea s.i (0 + n) := by
      simp only [ea] at hin ⊢
      omega
    rw [readBlock_error n 0 (Nat.zero_le _) hpast] at h
    cases h
    rfl

/-- A push is refused by a full stack only (R30). -/
theorem push_reason {a : Word} {s : State} {r : HaltReason} (h : push a s = .error r) :
    s.stack.length ≥ s.cfg.stackDepth ∧ r = .stackOverflow := by
  by_cases hroom : s.stack.length < s.cfg.stackDepth
  · rw [push_ok hroom] at h
    cases h
  · have hfull := Nat.le_of_not_lt hroom
    rw [push_error hfull] at h
    cases h
    exact ⟨hfull, rfl⟩

/-- A pop is refused by an empty stack only (R31). -/
theorem pop_reason {s : State} {r : HaltReason} (h : pop s = .error r) : s.stack = [] ∧ r = .stackUnderflow := by
  obtain ⟨hnil, e⟩ | ⟨_, _, _, e⟩ := pop_cases s <;> rw [e] at h <;> cases h
  exact ⟨hnil, rfl⟩

/-- NibbleIndex refuses a value above 0x0F under policy Halt only (R108). -/
theorem nibbleIndex_reason {c : Config} {v : Byte} {r : HaltReason} (h : nibbleIndex c v = .error r) :
    r.WideIndex c v := by
  obtain ⟨e, _⟩ | ⟨e, hwide, hhalt⟩ := nibbleIndex_cases c v <;> rw [e] at h <;> cases h
  exact ⟨hhalt, hwide, rfl⟩

/-- An instruction whose body raises the reasons of its row, and else leaves the run state alone, halts as tabled. -/
theorem orHalt_tabled {i : Instr} {s t : State} {body : Except HaltReason State}
    (herr : ∀ r, body = .error r → MayHalt s r i) (hok : ∀ u, body = .ok u → u.run = s.run)
    (h : orHalt s body = .next t) : (∃ r, MayHalt s r i ∧ t = takeHalt r s) ∨ t.run = s.run := by
  obtain hbody | ⟨r, hbody, ht⟩ := orHalt_next h
  · exact .inr (hok t hbody)
  · exact .inl ⟨r, herr r hbody, ht⟩

/-- An instruction halts for a reason of its row in R261's table, or leaves the run state alone. The last case is the
instructions the table does not list. -/
theorem exec_tabled {i : Instr} {s t : State} (h : exec i s = .next t) :
    (∃ r, MayHalt s r i ∧ t = takeHalt r s) ∨ t.run = s.run := by
  cases i with
  | ret =>
    refine orHalt_tabled (fun r hr => ?_) (fun u hu => ?_) h
    · split at hr <;> cases hr
      exact pop_reason ‹_›
    · split at hu <;> cases hu
      simp [(pop_completes ‹_›).run]
  | call =>
    refine orHalt_tabled (fun r hr => ?_) (fun u hu => ?_) h
    · split at hr <;> cases hr
      exact push_reason ‹_›
    · split at hu <;> cases hu
      simp [(push_completes ‹_›).run]
  | drw | ldVxMem =>
    refine orHalt_tabled (fun r hr => ?_) (fun u hu => ?_) h
    · split at hr <;> cases hr
      exact readBlock_reason ‹_›
    · split at hu <;> cases hu
      simp
  | ldBVx | ldMemVx =>
    refine orHalt_tabled (fun r hr => ?_) (fun u hu => ?_) h
    · split at hr <;> cases hr
      exact writeBlock_reason _ 0 s _ (Nat.zero_le _) ‹_›
    · split at hu <;> cases hu
      simp [(writeBlock_completes ‹_›).run]
  | skp | sknp | ldFVx =>
    refine orHalt_tabled (fun r hr => ?_) (fun u hu => ?_) h
    · split at hr <;> cases hr
      exact nibbleIndex_reason ‹_›
    · split at hu <;> cases hu
      rfl
  | ldVxK x => cases h; exact .inr (keyWait_completes x s).run
  | _ => cases h; exact .inr (by simp)

/-- Settles O13: an instruction of a running block that halts did not leave the run state alone. -/
theorem haltsOnlyAsTabled : Obligations.HaltsOnlyAsTabled := by
  intro i s t hs h ht
  obtain ⟨r, hr, rfl⟩ | hrun := exec_tabled h
  · exact ⟨r, rfl, hr⟩
  · rw [hrun, hs] at ht
    cases ht

end Sys2Proof.Machine
end

section
/-! The host's operations between instructions (spec R103, R266, R275, R276): a tick moves the timers in any run state,
a step moves them by FX15 and FX18 alone, and neither moves a halted block otherwise. -/

namespace Sys2Proof.Machine

/-! ### The host's next operation -/

theorem nextOp_of_cons {s : State} {op : HostOp} {ops : List HostOp} (h : s.pending = op :: ops) :
    nextOp s = (op, { s with pending := ops }) := by
  unfold nextOp
  rw [h]

theorem nextOp_of_nil {s : State} (h : s.pending = []) :
    nextOp s = (.step (Config.freeInput s.draws), { s with draws := s.draws + 1 }) := by
  unfold nextOp
  rw [h]

/-- A tick is never free: the host queued it (log 8). -/
theorem pending_of_nextOp_tick {s : State} (h : (nextOp s).1 = .tick) : ∃ ops, s.pending = .tick :: ops := by
  cases hp : s.pending with
  | nil => rw [nextOp_of_nil hp] at h; cases h
  | cons op ops => rw [nextOp_of_cons hp] at h; cases h; exact ⟨ops, rfl⟩

@[simp] theorem nextOp_dt (s : State) : (nextOp s).2.dt = s.dt := by
  obtain ⟨ops, d, e⟩ := nextOp_state s
  rw [e]

@[simp] theorem nextOp_st (s : State) : (nextOp s).2.st = s.st := by
  obtain ⟨ops, d, e⟩ := nextOp_state s
  rw [e]

section
variable {may : Part → Prop} {s t : State} (h : SameExcept may s t)
include h

theorem SameExcept.withPending (hp : may .pending) (ops : List HostOp) :
    SameExcept may s { t with pending := ops } := by
  intro p hn
  cases p with
  | pending => exact absurd hp hn
  | _ => exact h _ hn

theorem SameExcept.withDraws (hd : may .draws) (d : Nat) : SameExcept may s { t with draws := d } := by
  intro p hn
  cases p with
  | draws => exact absurd hd hn
  | _ => exact h _ hn

/-- A tick names the timers (R275). -/
theorem SameExcept.withTick (hdt : may .dt) (hst : may .st) : SameExcept may s (tick t) :=
  (h.withDt hdt (countDown t.dt)).withSt hst (countDown t.st)

/-- Taking the host's next operation names the queue and the draw counter (log 7, log 8). -/
theorem SameExcept.withNextOp (hp : may .pending) (hd : may .draws) : SameExcept may s (nextOp t).2 := by
  obtain ⟨ops, d, e⟩ := nextOp_state t
  rw [e]
  exact (h.withPending hp ops).withDraws hd d

end

/-! ### Ticks -/

/-- A queued tick is carried out in any run state (R275, R276; D23). -/
theorem step_of_tick {s : State} {ops : List HostOp} (h : s.pending = .tick :: ops) :
    step s = .next (tick { s with pending := ops }) := by
  rw [step, nextOp_of_cons h]

theorem tick_withPending_sameExcept (s : State) (ops : List HostOp) :
    SameExcept (· ∈ [.dt, .st, .pending]) s (tick { s with pending := ops }) :=
  ((SameExcept.refl _ s).withPending (by simp) ops).withTick (by simp) (by simp)

/-- Counting down is the subtraction of naturals, which stops at 0 (R275). -/
theorem countDown_toNat (b : Byte) : (countDown b).toNat = b.toNat - 1 := by
  have hb := b.isLt
  unfold countDown
  split
  · rw [BitVec.toNat_ofNat]
    omega
  · omega

/-- DT has one writer (R27). -/
theorem exec_dt {i : Instr} {s t : State} (h : exec i s = .next t) : t.dt = s.dt ∨ ∃ x, i = .ldDtVx x := by
  obtain ⟨r, rfl⟩ | hframe := exec_sameExcept h
  · exact .inl rfl
  · cases i with
    | ldDtVx x => exact .inr ⟨x, rfl⟩
    | _ => exact .inl (hframe .dt (by simp [MayWrite, Part.InBlock]))

/-- ST is written by FX18 alone: `exec_st` for the other instructions (R28). -/
theorem exec_st_or_ldStVx {i : Instr} {s t : State} (h : exec i s = .next t) :
    t.st = s.st ∨ ∃ x, i = .ldStVx x := by
  cases i with
  | ldStVx x => exact .inr ⟨x, rfl⟩
  | _ => exact .inl (exec_st rfl h)

/-- A step writes a timer only by the instruction it runs: taking the operation, sampling, a halt and the awaiting flag
leave both timers alone (R276). -/
theorem step_timers {s t : State} (hp : ∀ ops, s.pending ≠ .tick :: ops) (h : step s = .next t) :
    (t.dt = s.dt ∨ s.run = .running ∧ ∃ x, WordAtPc s (encode (.ldDtVx x))) ∧
    (t.st = s.st ∨ s.run = .running ∧ ∃ x, WordAtPc s (encode (.ldStVx x))) := by
  obtain ⟨htick, _⟩ | ⟨_, _, ⟨_, rfl⟩ | ⟨_, r, _, rfl⟩ | ⟨hs, i, u, hi, hu, rfl⟩⟩ := step_cases h
  · obtain ⟨ops, hops⟩ := pending_of_nextOp_tick htick
    exact absurd hops (hp ops)
  · exact ⟨.inl (by simp), .inl (by simp)⟩
  · exact ⟨.inl (by simp), .inl (by simp)⟩
  · have hword := fetchInstr_eq_ok_iff.mp hi
    constructor
    · obtain hdt | ⟨x, rfl⟩ := exec_dt hu
      · exact .inl (by simpa using hdt)
      · exact .inr ⟨hs, x, hword⟩
    · obtain hst | ⟨x, rfl⟩ := exec_st_or_ldStVx hu
      · exact .inl (by simpa using hst)
      · exact .inr ⟨hs, x, hword⟩

/-- Settles O10: the tick, the step, and the instruction by itself. -/
theorem onlyTicksCountDown : Obligations.OnlyTicksCountDown :=
  ⟨fun s ops hp => ⟨_, step_of_tick hp, countDown_toNat s.dt, countDown_toNat s.st, rfl,
      tick_withPending_sameExcept s ops⟩,
    fun _ _ hp h => step_timers hp h, fun _ _ _ h => ⟨exec_dt h, exec_st_or_ldStVx h⟩⟩

/-! ### The halted block -/

/-- One operation of a halted block is a tick, or a step that changes nothing of the block (R103, R276). -/
theorem step_sameExcept_of_halted {s t : State} (hs : s.run = .halted) (h : step s = .next t) :
    SameExcept (· ∈ [.dt, .st, .pending, .draws]) s t := by
  have htaken : SameExcept (· ∈ [.dt, .st, .pending, .draws]) s (nextOp s).2 :=
    (SameExcept.refl _ s).withNextOp (by simp) (by simp)
  obtain ⟨_, rfl⟩ | ⟨_, _, ⟨_, rfl⟩ | ⟨hr, _⟩ | ⟨hr, _⟩⟩ := step_cases h
  · exact htaken.withTick (by simp) (by simp)
  · exact htaken
  · rw [hs] at hr; cases hr
  · rw [hs] at hr; cases hr

/-- A run whose first step answers goes on from there. -/
theorem run_succ_of_step {M : Host.Core} {s t : M.State} (n : Nat) (h : M.step s = .next t) :
    M.run (n + 1) s = M.run n t := by
  rw [Host.Core.run, h]

/-- A halted block stays halted through any number of operations, and moves in its timers alone (R266). -/
theorem run_sameExcept_of_halted (n : Nat) : ∀ s : State, s.run = .halted →
    ∃ t, Sys2Proof.core.run n s = .next t ∧ SameExcept (· ∈ [.dt, .st, .pending, .draws]) s t := by
  induction n with
  | zero => exact fun s _ => ⟨s, rfl, SameExcept.refl _ s⟩
  | succ n ih =>
    intro s hs
    obtain ⟨u, hu⟩ := everyOperationAnswers s
    have hframe := step_sameExcept_of_halted hs hu
    have hrun : u.run = .halted := (hframe .run (by simp)).trans hs
    obtain ⟨t, ht, hrest⟩ := ih u hrun
    exact ⟨t, (run_succ_of_step (M := Sys2Proof.core) n hu).trans ht, hframe.trans hrest⟩

/-- The result of a halted block is its reason (R102; log 9). -/
theorem result_of_halted {s : State} (hs : s.run = .halted) : s.result = .halted s.reason := by
  unfold State.result
  rw [hs]

/-- Settles O9: the run by induction on the number of operations, its result by the frame, which keeps the run state
and the reason; and the three operations one by one. -/
theorem haltedIsTerminal : Obligations.HaltedIsTerminal := by
  refine ⟨fun n s hs => ?_, fun s inp ops hs hp => ?_, fun s hs hp => ?_, fun s ops _ hp => ?_⟩
  · obtain ⟨t, ht, hframe⟩ := run_sameExcept_of_halted n s hs
    have hrun : t.run = s.run := hframe .run (by simp)
    have hreason : t.reason = s.reason := hframe .reason (by simp)
    exact ⟨t, ht, hreason ▸ result_of_halted (hrun.trans hs), hframe⟩
  · have hop := nextOp_of_cons hp
    exact (step_of_halted hs (congrArg Prod.fst hop)).trans (by rw [hop])
  · have hop := nextOp_of_nil hp
    exact (step_of_halted hs (congrArg Prod.fst hop)).trans (by rw [hop])
  · exact ⟨_, step_of_tick hp, tick_withPending_sameExcept s ops⟩

end Sys2Proof.Machine
end

section
/-! What construction leaves in the registers, the program counter, the framebuffer and memory (spec R290, R291; D16,
D17). The font table is `initial_byteAt_font`. -/

namespace Sys2Proof.Machine

@[simp] theorem initial_reg (c : Config) (x : Nibble) : (State.initial c).reg x = 0 :=
  Vector.getElem_replicate x.isLt

/-- The frame of a constructed block is the cleared one (R291). -/
@[simp] theorem initial_fb (c : Config) : (State.initial c).fb = Frame.clear := rfl

/-- An admitted load address fits in PC and in the program end (R8). -/
theorem toNat_ofNat_loadAddr {c : Config} (hadm : c.admitted = true) :
    (BitVec.ofNat 16 c.loadAddr).toNat = c.loadAddr := by
  obtain ⟨_, hload, _⟩ := (admitted_iff c).mp hadm
  exact toNat_ofNat_of_le_memSize hload.le

/-- Outside the font a constructed block reads as `INIT_MEM` (R290; D16). -/
theorem initial_byteAt_of_not_inFont {c : Config} {a : Nat} (ha : ¬ inFont c a = true) :
    (State.initial c).byteAt a = (c.initMem.lookup a).getD 0 := by
  show resetByte c a = _
  rw [resetByte, if_neg ha]

/-- Settles O16: the constructed state is the initial one, whose PC and program end hold the load address unwrapped. -/
theorem constructLeavesResetValues : Obligations.ConstructLeavesResetValues := by
  intro c hadm
  have hload := toNat_ofNat_loadAddr hadm
  refine ⟨State.initial c, construct_next.mpr ⟨hadm, rfl⟩, rfl, initial_reg c, rfl, hload, rfl, rfl, rfl, ?pixels,
    rfl, rfl, rfl, hload, fun k hk => initial_byteAt_font c hk, ?memory⟩
  case pixels => simp
  case memory => exact fun a ha => initial_byteAt_of_not_inFont (mt (inFont_iff c a).mp ha)

end Sys2Proof.Machine
end
